-- ==== Sys2Proof/Word.lean ====
section
/-! DEFINITION. The word types of the unit and the names of the five offsets: types only, no arithmetic. -/

namespace Sys2Proof

/-- A 26-bit block as it stands in the shift register: data in bits 25:10, checkword in bits 9:0 (30_encoding.md R72). -/
abbrev Raw := BitVec 26

/-- The 16 payload bits of a block (30_encoding.md R72). -/
abbrev Data := BitVec 16

/-- Ten bits: a checkword, an offset word, a syndrome, a row of the parity-check matrix (00_scope.md R8, CHECK_LEN). -/
abbrev Check := BitVec 10

/-- One command word `cw[71:0]` (30_encoding.md R70, R71). -/
abbrev CommandWord := BitVec 72

/-- The offsets a block position can carry (30_encoding.md R74). The document's sixth value, `invalid`, is `none` of
`Option Offset`, so a register that is never `invalid` (10_state.md R27) has the type `Offset`. DEDUCED from R27 and R74,
safe: notes/assumptions/10.md. -/
inductive Offset where
  | a
  | b
  | c
  /-- C′, the substitute for C used in version-B groups (R75). -/
  | cPrime
  | d
  deriving DecidableEq, Repr

/-- A block number, 1 to 4 (30_encoding.md R76): the index of a slot of a group. -/
inductive BlockNo where
  | one
  | two
  | three
  | four
  deriving DecidableEq, Repr

end Sys2Proof
end

