-- ==== Sys2Proof/Syntax.lean ====
section
/-! DEFINITION. The commands of the unit, one constructor per row of spec/opcode_table.json. -/

namespace Sys2Proof

/-- The eight commands (30_encoding.md R71). A bit of the command word that is no field of the command is ignored (R71),
so it has no place here. -/
inductive Instr where
  /-- NOP, op 0 (R171). -/
  | nop
  /-- PUSH_BIT b, op 1, `b = cw[0]` (R130). -/
  | pushBit (b : Bool)
  /-- POP_GROUP, op 2 (R168). -/
  | popGroup
  /-- PUSH_GROUP, op 3: `rx1..rx4 = cw[67..64]`, `w1 = cw[63:48]` to `w4 = cw[15:0]` (R169). -/
  | pushGroup (rx1 rx2 rx3 rx4 : Bool) (w1 w2 w3 w4 : Data)
  /-- DISABLE_OFFSETS, op 4 (R170). -/
  | disableOffsets
  /-- RESET, op 5 (R210). -/
  | reset
  /-- Reserved opcode 6, executes as NOP (R84). -/
  | reserved6
  /-- Reserved opcode 7, executes as NOP (R84). -/
  | reserved7
  deriving DecidableEq, Repr

end Sys2Proof
end

