-- ==== Sys2Proof/Decode.lean ====
section
/-! DEFINITION. The command word: its decoder, total on every word and rejecting none (30_encoding.md R71: "The eight rows
partition all 2^72 words, so a decoder written from this table is total"; R84: "There is no illegal command word"), and
the encoder that R86 writes words with. -/

namespace Sys2Proof

/-- `op = cw[71:69]` (30_encoding.md R71). -/
def opField (w : CommandWord) : BitVec 3 := w.extractLsb' 69 3

/-- `b = cw[0]` (R71). -/
def bField (w : CommandWord) : Bool := w.getLsbD 0

/-- `rx1 = cw[67]` (R71). -/
def rx1Field (w : CommandWord) : Bool := w.getLsbD 67

/-- `rx2 = cw[66]` (R71). -/
def rx2Field (w : CommandWord) : Bool := w.getLsbD 66

/-- `rx3 = cw[65]` (R71). -/
def rx3Field (w : CommandWord) : Bool := w.getLsbD 65

/-- `rx4 = cw[64]` (R71). -/
def rx4Field (w : CommandWord) : Bool := w.getLsbD 64

/-- `w1 = cw[63:48]` (R71). -/
def w1Field (w : CommandWord) : Data := w.extractLsb' 48 16

/-- `w2 = cw[47:32]` (R71). -/
def w2Field (w : CommandWord) : Data := w.extractLsb' 32 16

/-- `w3 = cw[31:16]` (R71). -/
def w3Field (w : CommandWord) : Data := w.extractLsb' 16 16

/-- `w4 = cw[15:0]` (R71). -/
def w4Field (w : CommandWord) : Data := w.extractLsb' 0 16

/-- The command a word stands for (30_encoding.md R71). Bits that are no field of the command are not looked at. -/
def decode (w : CommandWord) : Instr :=
  match (opField w).toNat with
  | 0 => .nop
  | 1 => .pushBit (bField w)
  | 2 => .popGroup
  | 3 => .pushGroup (rx1Field w) (rx2Field w) (rx3Field w) (rx4Field w) (w1Field w) (w2Field w) (w3Field w) (w4Field w)
  | 4 => .disableOffsets
  | 5 => .reset
  | 6 => .reserved6
  | _ => .reserved7

/-- The 69 bits below the opcode, all 0. -/
def noFields : BitVec 69 := 0

/-- The word of a command, its ignored bits 0 (30_encoding.md R86; for the reserved opcodes the table's match, R71). -/
def encode : Instr → CommandWord
  | .nop => (0b000 : BitVec 3) ++ noFields
  | .pushBit b => (0b001 : BitVec 3) ++ (0 : BitVec 68) ++ BitVec.ofBool b
  | .popGroup => (0b010 : BitVec 3) ++ noFields
  | .pushGroup rx1 rx2 rx3 rx4 w1 w2 w3 w4 =>
    (0b011 : BitVec 3) ++ (0 : BitVec 1) ++ BitVec.ofBool rx1 ++ BitVec.ofBool rx2 ++ BitVec.ofBool rx3 ++
      BitVec.ofBool rx4 ++ w1 ++ w2 ++ w3 ++ w4
  | .disableOffsets => (0b100 : BitVec 3) ++ noFields
  | .reset => (0b101 : BitVec 3) ++ noFields
  | .reserved6 => (0b110 : BitVec 3) ++ noFields
  | .reserved7 => (0b111 : BitVec 3) ++ noFields

/-- The bits of a word that are the opcode or a field of the command: all others are ignored (30_encoding.md R71). -/
def usedBits : Instr → CommandWord
  | .pushBit _ => 0xE00000000000000001
  | .pushGroup _ _ _ _ _ _ _ _ => 0xEFFFFFFFFFFFFFFFFF
  | .nop => 0xE00000000000000000
  | .popGroup => 0xE00000000000000000
  | .disableOffsets => 0xE00000000000000000
  | .reset => 0xE00000000000000000
  | .reserved6 => 0xE00000000000000000
  | .reserved7 => 0xE00000000000000000

/-- The command word whose bits are `w` as spec/opcode_table.json numbers them (bit i of `w` is `cw[i]`, bits from `nbits`
up are 0); `none` when `w` has a bit above bit 71, which no command word has. -/
def tableWord (nbits w : Nat) : Option CommandWord :=
  let v := w % 2 ^ nbits
  if v < 2 ^ 72 then some (BitVec.ofNat 72 v) else none

/-- The command the decoder reads from a row's word, numbered as spec/opcode_table.json numbers it. -/
def decodeTableWord (nbits w : Nat) : Option Instr := (tableWord nbits w).map decode

end Sys2Proof
end

