-- ==== Sys2Proof/Config.lean ====
section
/-! DEFINITION. The configuration of a unit: the parameters of 00_scope.md R9, fixed when it is built, and the two
free values. Their defaults stand in Machine/Tables.lean. -/

namespace Sys2Proof

/-- When the sync-loss test of 41_push_bit.md R144 is evaluated: the parameter LOSS_CHECK (00_scope.md R9). -/
inductive LossCheck where
  | onUncorrectable
  | everyBlock
  deriving DecidableEq, Repr

/-- The parameters of 00_scope.md R9. A model takes each as a configuration field; State holds them as a constant that no
step writes, so a statement about every state is a statement about every configuration (notes/assumptions/3.md). -/
structure Config where
  /-- BLER_N: groups in the BLER moving average, at least 1. -/
  blerN : Nat
  /-- H: the 26 rows of the parity-check matrix, row 0 first. -/
  matrix : Vector Check 26
  /-- LOSS_CHECK. -/
  lossCheck : LossCheck
  /-- SINCE_W: width of `bits_since_lost`, at least 1. -/
  sinceW : Nat
  deriving DecidableEq, Repr

/-- FREE VALUE. What port SR2 shows when the BLER sum does not fit its 8 bits: 10_state.md R29 gives the width "for every
BLER_N ≤ 63" and states no value beyond. DESIGN CHOICE, safe: notes/assumptions/12.md. -/
opaque Config.sr2Overflow : Nat → BitVec 8

/-- FREE VALUE. What port SR4 shows when BLER_N does not fit its 8 bits (10_state.md R29 states no value).
DESIGN CHOICE, safe: notes/assumptions/12.md. -/
opaque Config.sr4Overflow : Nat → BitVec 8

end Sys2Proof
end

