-- ==== Sys2Proof/Machine/Tables.lean ====
section
/-! DEFINITION. The constant tables of the unit (10_state.md R35, 20_memory.md R54) and the default configuration
(00_scope.md R9). -/

namespace Sys2Proof.Machine

/-- OFFSET_WORD (30_encoding.md R75). -/
def offsetWord : Offset → Check
  | .a => 0x0FC
  | .b => 0x198
  | .c => 0x168
  | .cPrime => 0x350
  | .d => 0x1B4

/-- The five offsets in the order of 30_encoding.md R74. -/
def offsets : List Offset := [.a, .b, .c, .cPrime, .d]

/-- The 3-bit offset code, `none` being `invalid`; codes 6 and 7 are never produced (30_encoding.md R74). -/
def offsetCode : Option Offset → BitVec 3
  | some .a => 0
  | some .b => 1
  | some .c => 2
  | some .cPrime => 3
  | some .d => 4
  | none => 5

/-- BLOCKNUM as the name of a slot (30_encoding.md R76). -/
def blockNo : Offset → BlockNo
  | .a => .one
  | .b => .two
  | .c => .three
  | .cPrime => .three
  | .d => .four

/-- A block number as the number 1 to 4 (30_encoding.md R76). -/
def blockNoToNat : BlockNo → Nat
  | .one => 1
  | .two => 2
  | .three => 3
  | .four => 4

/-- BLOCKNUM as a number (30_encoding.md R76). -/
def blockNum (o : Offset) : Nat := blockNoToNat (blockNo o)

/-- NEXT_OFFSET: the cycle A→B→C|C′→D→A (40_code_functions.md R110). -/
def nextOffset : Offset → Offset
  | .a => .b
  | .b => .c
  | .c => .d
  | .cPrime => .d
  | .d => .a

/-- The rows of the parity-check matrix, row 0 first (40_code_functions.md R101). The spec supplies them from general
knowledge (93_implementation_defined.md G2): notes/assumptions/5.md. -/
def defaultMatrix : Vector Check 26 :=
  #v[0x200, 0x100, 0x080, 0x040, 0x020, 0x010, 0x008, 0x004, 0x002, 0x001,
     0x2DC, 0x16E, 0x0B7, 0x287, 0x39F, 0x313, 0x355, 0x376, 0x1BB, 0x201,
     0x3DC, 0x1EE, 0x0F7, 0x2A7, 0x38F, 0x31B]

/-- The default configuration (00_scope.md R9): notes/assumptions/7.md. -/
def defaultConfig : Config where
  blerN := 12
  matrix := defaultMatrix
  lossCheck := .onUncorrectable
  sinceW := 32

/-- BLOCK_LEN, bits per block (00_scope.md R8). -/
abbrev blockLen : Nat := 26

/-- MAX_PULSE_BLOCKS, the largest pulse separation that can give sync, in blocks (00_scope.md R8). -/
abbrev maxPulseBlocks : Nat := 6

/-- ERRWIN_LEN, blocks in the sync-loss running sum (00_scope.md R8). -/
abbrev errwinLen : Nat := 50

/-- LOSS_THRESHOLD: sync is dropped when the sum is greater (00_scope.md R8). -/
abbrev lossThreshold : Nat := 45

/-- g(x) = x^10 + x^8 + x^7 + x^5 + x^4 + x^3 + 1, bit k the coefficient of x^k (40_code_functions.md R100). From general
knowledge in the spec (93_implementation_defined.md G1): notes/assumptions/6.md. -/
def generator : Raw := 0x5B9

end Sys2Proof.Machine
end

