-- ==== Sys2Proof/Machine/Code.lean ====
section
/-! DEFINITION. The (26,16) code and the combinational functions of 40_code_functions.md: pure and total, no state. -/

namespace Sys2Proof.Machine

/-- `data = raw[25:10]` (30_encoding.md R72). -/
def dataOf (raw : Raw) : Data := raw.extractLsb' 10 16

/-- `raw[9:0]` (30_encoding.md R72). -/
def checkOf (raw : Raw) : Check := raw.extractLsb' 0 10

/-- A ten-bit value unshifted in bits 9:0 of a block, `zext_26` (40_code_functions.md R107). -/
def lowBits (c : Check) : Raw := c.setWidth 26

/-- SYNDROME: the GF(2) product of a block with the matrix; row i multiplies block bit 25−i (40_code_functions.md R103). -/
def syndrome (matrix : Vector Check 26) (v : Raw) : Check :=
  (List.range 26).foldl (fun s i => if v.getLsbD (25 - i) then s ^^^ matrix.toList.getD i 0 else s) 0

/-- The remainder of a block modulo g(x): the loop of CHECKWORD on any starting value (40_code_functions.md R104). -/
def remainder (v : Raw) : Check :=
  checkOf ((List.range 16).foldl
    (fun r i => if r.getLsbD (25 - i) then r ^^^ (generator <<< (15 - i)) else r) v)

/-- A block is a codeword iff g(x) divides it (40_code_functions.md R100). -/
def isCodeword (v : Raw) : Bool := remainder v == 0

/-- CHECKWORD: the remainder of d(x)·x^10 modulo g(x) (40_code_functions.md R104). A reference function, no part of the unit. -/
def checkword (d : Data) : Check := remainder (d ++ (0 : Check))

/-- ENCODE: the error-free block of a data word at an offset (40_code_functions.md R104, 30_encoding.md R73). A reference
function, no part of the unit. -/
def encodeBlock (d : Data) (o : Offset) : Raw := d ++ (checkword d ^^^ offsetWord o)

/-- OFFSET_SYN: the syndrome of an offset word (40_code_functions.md R105). -/
def offsetSyn (matrix : Vector Check 26) (o : Offset) : Check := syndrome matrix (lowBits (offsetWord o))

/-- OFFSET_OF: the offset a syndrome reveals, `none` for `invalid` (40_code_functions.md R106). -/
def offsetOf (matrix : Vector Check 26) (s : Check) : Option Offset :=
  if s = offsetSyn matrix .a then some .a
  else if s = offsetSyn matrix .b then some .b
  else if s = offsetSyn matrix .c then some .c
  else if s = offsetSyn matrix .cPrime then some .cPrime
  else if s = offsetSyn matrix .d then some .d
  else none

/-- The offset observed in a block: BLOCK_STEP step 1 (41_push_bit.md R132). -/
def observed (matrix : Vector Check 26) (raw : Raw) : Option Offset := offsetOf matrix (syndrome matrix raw)

/-- BURSTS: the 26 one-bit and 25 two-bit error vectors (40_code_functions.md R107, 30_encoding.md R82). -/
def bursts : List Raw :=
  (List.range 26).map (fun s => (1 : Raw) <<< s) ++ (List.range 25).map (fun s => (3 : Raw) <<< s)

/-- The key under which an error vector stands in the table of an expected offset (40_code_functions.md R107). -/
def burstKey (matrix : Vector Check 26) (o : Offset) (e : Raw) : Check :=
  syndrome matrix (e ^^^ lowBits (offsetWord o))

/-- The entries with `hit` = 1 of ERR_TABLE for one expected offset: key and error vector (40_code_functions.md R107). -/
def errColumn (matrix : Vector Check 26) (o : Offset) : List (Check × Raw) :=
  bursts.map fun e => (burstKey matrix o e, e)

/-- ERR_TABLE: its entries with `hit` = 1, as (syndrome, expected offset, error vector); every other index has
`hit` = 0 and `e` = 0 (40_code_functions.md R107, 30_encoding.md R82). -/
def errTable (matrix : Vector Check 26) : List (Check × Offset × Raw) :=
  offsets.flatMap fun o => (errColumn matrix o).map fun ke => (ke.1, o, ke.2)

/-- ERR_LOOKUP: `some e` for a hit with error vector `e`, `none` for `hit` = 0 (40_code_functions.md R108). Keys of one
offset are distinct for every matrix R102 admits, so which of two equal keys wins does not matter (R107;
notes/assumptions/19.md). -/
def errLookup (matrix : Vector Check 26) (s : Check) (o : Offset) : Option Raw :=
  ((errColumn matrix o).find? fun ke => ke.1 == s).map fun ke => ke.2

/-- CORRECT: whether the correction succeeded, and the corrected block (40_code_functions.md R109). -/
def correct (matrix : Vector Check 26) (raw : Raw) (o : Offset) : Bool × Raw :=
  match errLookup matrix (syndrome matrix raw) o with
  | some e => (true, raw ^^^ e)
  | none => (false, raw)

end Sys2Proof.Machine
end

