-- ==== Sys2Proof/Machine/State.lean ====
section
/-! DEFINITION. The state of the unit: the complete list of 10_state.md R20, and beside it the configuration, the group
output of the last command and the command words the host is going to present. -/

namespace Sys2Proof.Machine

/-- A slot: one Block (10_state.md R22, 30_encoding.md R77). -/
structure Slot where
  raw : Raw
  data : Data
  /-- `none` is `invalid`. -/
  offset : Option Offset
  isReceived : Bool
  hadErrors : Bool
  deriving DecidableEq, Repr

/-- The fresh slot (10_state.md R22). -/
def Slot.fresh : Slot where
  raw := 0
  data := 0
  offset := none
  isReceived := false
  hadErrors := false

/-- Four blocks addressed by block number (10_state.md R22). -/
structure Slots where
  slot1 : Slot
  slot2 : Slot
  slot3 : Slot
  slot4 : Slot
  deriving DecidableEq, Repr

/-- The fresh group (10_state.md R22). -/
def Slots.fresh : Slots where
  slot1 := Slot.fresh
  slot2 := Slot.fresh
  slot3 := Slot.fresh
  slot4 := Slot.fresh

/-- The group record (30_encoding.md R78). `nErr` and `blerSum` are the exact numbers (notes/assumptions/12.md). -/
structure Group where
  slots : Slots
  typeNumber : BitVec 4
  /-- `false` = version A, `true` = version B (R79). -/
  typeVersion : Bool
  hasType : Bool
  noOffsets : Bool
  nErr : Nat
  blerSum : Nat
  deriving DecidableEq, Repr

/-- The fresh group with every derived field 0: the reset value of `ready` (70_reset_and_hazards.md R210). -/
def Group.fresh : Group where
  slots := Slots.fresh
  typeNumber := 0
  typeVersion := false
  hasType := false
  noOffsets := false
  nErr := 0
  blerSum := 0

/-- A sync pulse whose `valid` bit is 1 (30_encoding.md R81). -/
structure Pulse where
  offset : Offset
  bitcount : Nat
  deriving DecidableEq, Repr

/-- The pulse history, `pulse3` the most recent (10_state.md R32). An entry with `valid` = 0 is `none`: its other fields
are unspecified and never read (70_reset_and_hazards.md R210). DEDUCED, safe: notes/assumptions/9.md. -/
structure PulseHistory where
  pulse0 : Option Pulse
  pulse1 : Option Pulse
  pulse2 : Option Pulse
  pulse3 : Option Pulse
  deriving DecidableEq, Repr

/-- The history with every `valid` = 0. -/
def PulseHistory.empty : PulseHistory where
  pulse0 := none
  pulse1 := none
  pulse2 := none
  pulse3 := none

/-- The machine. The fields from `reg` to `blerwin` are R20's complete list, in its order and under its names. -/
structure State where
  /-- The parameters of 00_scope.md R9; no step writes them (notes/assumptions/3.md). -/
  cfg : Config
  /-- `reg`, the 26-bit sliding register (R21). -/
  reg : Raw
  /-- `cur`, the group being assembled (R22). -/
  cur : Slots
  /-- `ready`, the last group emitted (R23). -/
  ready : Group
  /-- `group_ready` (R23, R28). -/
  groupReady : Bool
  /-- `bitcount`, PUSH_BIT commands since reset, unbounded (R25). -/
  bitcount : Nat
  /-- `nb_until`, bits until the next block step, 1 to 26 between commands (R26). -/
  nbUntil : Nat
  /-- `expected`, never `invalid` (R27). -/
  expected : Offset
  /-- `in_sync` (R28). -/
  inSync : Bool
  /-- `offsets_disabled` (R30). -/
  offsetsDisabled : Bool
  /-- `bits_since_lost`, at most 2^SINCE_W − 1 (R31). -/
  bitsSinceLost : Nat
  /-- `pulse[0..3]` (R32). -/
  pulses : PulseHistory
  /-- `errwin`, oldest entry first (R33, R36). -/
  errwin : List Bool
  /-- `blerwin`, oldest entry first (R34, R36). -/
  blerwin : List Nat
  /-- The group output of the last command (00_scope.md R14, R15; 30_encoding.md R70): notes/assumptions/2.md. -/
  out : Option Group
  /-- The model's own field: the command words the host is going to present, next first (30_encoding.md R70). DESIGN
  CHOICE, safe: notes/assumptions/1.md. -/
  pending : List CommandWord
  deriving DecidableEq, Repr

/-- The state S0 of a unit of the given configuration (10_state.md R20, 70_reset_and_hazards.md R210, R211). -/
def State.initial (cfg : Config) : State where
  cfg := cfg
  reg := 0
  cur := Slots.fresh
  ready := Group.fresh
  groupReady := false
  bitcount := 0
  nbUntil := 1
  expected := .a
  inSync := false
  offsetsDisabled := false
  bitsSinceLost := 0
  pulses := PulseHistory.empty
  errwin := List.replicate errwinLen false
  blerwin := List.replicate cfg.blerN 0
  out := none
  pending := []

/-- The machine right after power-on reset, with the default configuration and no command presented yet
(70_reset_and_hazards.md R211; 00_scope.md R9). -/
def State.reset : State := State.initial defaultConfig

/-- The unit has no fault: "A model's `step` returns a new state for every (state, command) pair and has no fault outcome"
(60_exceptions.md R190). Nobody raises one; safe. -/
inductive Fault where
  deriving DecidableEq, Repr

/-- No command is refused (00_scope.md R15). -/
inductive Refusal where
  /-- An instruction without a meaning, by name: required by the host's interface and raised by no arm, since every
  instruction has its meaning. Safe. -/
  | notModelled (mnemonic : String)
  deriving DecidableEq, Repr

end Sys2Proof.Machine
end

