-- ==== Sys2Proof/Machine/Flags.lean ====
section
/-! DEFINITION. The flags and counts the unit computes: had_errors, the loss test, and the derived fields of a group. The
unit has no condition codes (10_state.md R28). -/

namespace Sys2Proof.Machine

/-- Whether a framed block "had errors": its observed offset differs from the expected one (41_push_bit.md R141). -/
def hadErrorsFlag (obs : Option Offset) (expected : Offset) : Bool := decide (obs ≠ some expected)

/-- `errwin.sum()`: the number of 1 entries (10_state.md R33). -/
def errSum (errwin : List Bool) : Nat := errwin.count true

/-- Whether the sync-loss test is made in this block step (41_push_bit.md R144). -/
def lossTested (cfg : Config) (uncorrectable : Bool) : Bool :=
  uncorrectable || cfg.lossCheck == .everyBlock

/-- Whether this block step drops sync, `errwin` already holding its flag (41_push_bit.md R144). -/
def lossFound (cfg : Config) (uncorrectable : Bool) (errwin : List Bool) : Bool :=
  lossTested cfg uncorrectable && decide (lossThreshold < errSum errwin)

/-- Whether a slot counts as missing or errored (42_group_bler_commands.md R161). -/
def slotErrored (sl : Slot) : Bool := !sl.isReceived || sl.hadErrors

/-- N_ERR: the number of missing or errored slots, 0 to 4 (42_group_bler_commands.md R161). -/
def nErrOf (slots : Slots) : Nat :=
  (slotErrored slots.slot1).toNat + (slotErrored slots.slot2).toNat + (slotErrored slots.slot3).toNat +
    (slotErrored slots.slot4).toNat

/-- `type_number = d2[15:12]` when block 2 is received, else 0 (30_encoding.md R79). -/
def typeNumberOf (slots : Slots) : BitVec 4 :=
  if slots.slot2.isReceived then slots.slot2.data.extractLsb' 12 4 else 0

/-- `type_version = d2[11]` when block 2 is received, else 0 (30_encoding.md R79). -/
def typeVersionOf (slots : Slots) : Bool := slots.slot2.isReceived && slots.slot2.data.getLsbD 11

/-- Block 3 received under C′. -/
def thirdIsCPrime (slots : Slots) : Bool :=
  slots.slot3.isReceived && slots.slot3.offset == some .cPrime

/-- `has_type` (42_group_bler_commands.md R162). -/
def hasTypeOf (offsetsDisabled : Bool) (slots : Slots) : Bool :=
  slots.slot2.isReceived && (!typeVersionOf slots || offsetsDisabled || thirdIsCPrime slots)

/-- HAS_PI (42_group_bler_commands.md R163); computed by a consumer, not stored. -/
def hasPI (g : Group) : Bool := g.slots.slot1.isReceived || thirdIsCPrime g.slots

/-- IS_EMPTY (42_group_bler_commands.md R163); computed by a consumer, not stored. -/
def isEmpty (g : Group) : Bool :=
  !g.slots.slot1.isReceived && !g.slots.slot2.isReceived && !g.slots.slot3.isReceived && !g.slots.slot4.isReceived

/-- BLER_PCT: the percentage, halves rounded up (42_group_bler_commands.md R166). -/
def blerPct (blerN sum : Nat) : Nat := (100 * sum + 2 * blerN) / (4 * blerN)

end Sys2Proof.Machine
end

