-- ==== Sys2Proof/Machine/Operands.lean ====
section
/-! DEFINITION. Operand assembly (30_encoding.md R83): the received bit shifted into the register, and the slots of
PUSH_GROUP. The slices of R72 and R79 stand in Code.lean and Flags.lean. -/

namespace Sys2Proof.Machine

/-- `{reg[24:0], b}`: shift left by one, the new bit at bit 0, the old bit 25 dropped (41_push_bit.md R130 step 1). -/
def shiftIn (reg : Raw) (b : Bool) : Raw := reg.extractLsb' 0 25 ++ BitVec.ofBool b

/-- Slot k of PUSH_GROUP: the data word over a zero checkword when received, else the fresh slot
(42_group_bler_commands.md R169, 30_encoding.md R83). -/
def pushedSlot (rx : Bool) (w : Data) (o : Offset) : Slot :=
  if rx then
    { raw := w ++ (0 : Check), data := w, offset := some o, isReceived := true, hadErrors := false }
  else Slot.fresh

/-- The four slots of PUSH_GROUP; block 3 is always labelled C (42_group_bler_commands.md R169). -/
def pushedSlots (rx1 rx2 rx3 rx4 : Bool) (w1 w2 w3 w4 : Data) : Slots where
  slot1 := pushedSlot rx1 w1 .a
  slot2 := pushedSlot rx2 w2 .b
  slot3 := pushedSlot rx3 w3 .c
  slot4 := pushedSlot rx4 w4 .d

end Sys2Proof.Machine
end

