-- ==== Sys2Proof/Machine/Ops.lean ====
section
/-! DEFINITION. The named operations over State. The unit raises no exception and has no trap entry and no trap return
(60_exceptions.md R190, R194), so there is no operation that takes one; the two conditions the spec records in data are
`markUncorrectable` and `dropSync`. -/

namespace Sys2Proof.Machine

/-! ## Presenting a command -/

/-- The next command word and the state that executes it: the head of what the host presents (30_encoding.md R70). -/
def fetch (s : State) : Option (CommandWord × State) :=
  match s.pending with
  | [] => none
  | w :: rest => some (w, { s with pending := rest })

/-- No command presented: "Between commands the unit holds its state unchanged for any length of time"
(60_exceptions.md R199). -/
def idle (s : State) : Host.Outcome State Fault Refusal := .next s

/-- Present a word as the very next command. -/
def present (w : CommandWord) (s : State) : State := { s with pending := w :: s.pending }

/-- The group output of a command is `none` until it reaches `emit` (00_scope.md R14). -/
def clearOut (s : State) : State := { s with out := none }

/-! ## Slots and windows -/

/-- `cur[k]`, addressed by block number (10_state.md R22). -/
def getSlot (slots : Slots) : BlockNo → Slot
  | .one => slots.slot1
  | .two => slots.slot2
  | .three => slots.slot3
  | .four => slots.slot4

/-- Write slot k (42_group_bler_commands.md R175). -/
def setSlot (slots : Slots) (k : BlockNo) (sl : Slot) : Slots :=
  match k with
  | .one => { slots with slot1 := sl }
  | .two => { slots with slot2 := sl }
  | .three => { slots with slot3 := sl }
  | .four => { slots with slot4 := sl }

/-- Push into a window of fixed length: the oldest entry is dropped (20_memory.md R55). -/
def pushWindow {α : Type} (w : List α) (x : α) : List α := (w ++ [x]).drop 1

/-! ## Emission -/

/-- The record of a group with these slots (42_group_bler_commands.md R164 step 3). -/
def groupRecord (offsetsDisabled : Bool) (slots : Slots) (blerSum : Nat) : Group where
  slots := slots
  typeNumber := typeNumberOf slots
  typeVersion := typeVersionOf slots
  hasType := hasTypeOf offsetsDisabled slots
  noOffsets := offsetsDisabled
  nErr := nErrOf slots
  blerSum := blerSum

/-- EMIT: push the error count, form the record, load `ready`, set `group_ready`, and output the group
(42_group_bler_commands.md R164). -/
def emit (slots : Slots) (s : State) : State :=
  let blerwin := pushWindow s.blerwin (nErrOf slots)
  let g := groupRecord s.offsetsDisabled slots blerwin.sum
  { s with blerwin := blerwin, ready := g, groupReady := true, out := some g }

/-! ## Search (41_push_bit.md section 2) -/

/-- Add 1 to `bits_since_lost`, saturating at 2^SINCE_W − 1 (R134). -/
def countSearchBit (s : State) : State :=
  { s with bitsSinceLost := min (s.bitsSinceLost + 1) (2 ^ s.cfg.sinceW - 1) }

/-- PULSE_PUSH on the history (R135). -/
def pushPulse (h : PulseHistory) (o : Offset) (t : Nat) : PulseHistory where
  pulse0 := h.pulse1
  pulse1 := h.pulse2
  pulse2 := h.pulse3
  pulse3 := some { offset := o, bitcount := t }

/-- Whether an earlier pulse and the latest are a legal distance apart with consistent block numbers (R137). The remainder
is the mathematical one, never negative (42_group_bler_commands.md R173). -/
def pulsesMatch (earlier latest : Pulse) : Bool :=
  let dist := latest.bitcount - earlier.bitcount
  dist % blockLen == 0 && decide (dist / blockLen ≤ maxPulseBlocks) &&
    ((blockNum earlier.offset : Int) + (dist / blockLen : Nat) - blockNum latest.offset) % 4 == 0

/-- An earlier history entry against the latest pulse: an entry with `valid` = 0 never matches (R137). -/
def entryMatches (earlier : Option Pulse) (latest : Pulse) : Bool :=
  match earlier with
  | some p => pulsesMatch p latest
  | none => false

/-- SEQUENCE_FOUND: the latest pulse against each of the three earlier ones (R137). -/
def sequenceFound (h : PulseHistory) : Bool :=
  match h.pulse3 with
  | some latest => entryMatches h.pulse0 latest || entryMatches h.pulse1 latest || entryMatches h.pulse2 latest
  | none => false

/-- ACQUIRE (R138). -/
def acquire (o : Offset) (s : State) : State :=
  { s with inSync := true, expected := o, cur := Slots.fresh, bitsSinceLost := 0 }

/-- SEARCH_STEP (R133). -/
def searchStep (obs : Option Offset) (s : State) : State :=
  let s := countSearchBit s
  match obs with
  | none => s
  | some o =>
    let s := { s with pulses := pushPulse s.pulses o s.bitcount }
    if sequenceFound s.pulses then acquire o s else s

/-! ## Reception (41_push_bit.md section 3) -/

/-- RECEIVE step 1: C′ observed while C is expected is permitted (R140). -/
def substitute (obs : Option Offset) (s : State) : State :=
  if s.expected = .c ∧ obs = some .cPrime then { s with expected := .cPrime } else s

/-- RECEIVE step 3 (R141). -/
def pushErrorFlag (had : Bool) (s : State) : State := { s with errwin := pushWindow s.errwin had }

/-- RECEIVE steps 4 and 5: the block stored when it is clean or corrected, `none` when it is uncorrectable
(R142, R143, R146). -/
def framedBlock (cfg : Config) (raw : Raw) (expected : Offset) (had : Bool) : Option Slot :=
  if had then
    match correct cfg.matrix raw expected with
    | (true, corr) =>
      some { raw := corr, data := dataOf corr, offset := some expected, isReceived := true, hadErrors := true }
    | (false, _) => none
  else
    some { raw := raw, data := dataOf raw, offset := some expected, isReceived := true, hadErrors := false }

/-- Sync loss: `in_sync` <- 0 and `errwin` all 0; nothing else changes (R144). -/
def dropSync (s : State) : State :=
  { s with inSync := false, errwin := List.replicate errwinLen false }

/-- RECEIVE step 6 (R144). -/
def lossStep (uncorrectable : Bool) (s : State) : State :=
  if lossFound s.cfg uncorrectable s.errwin then dropSync s else s

/-- RECEIVE step 7, a block that is stored: the whole slot is replaced (R146). -/
def storeBlock (blk : Slot) (s : State) : State :=
  { s with cur := setSlot s.cur (blockNo s.expected) blk }

/-- RECEIVE step 7, an uncorrectable block: only the slot's `had_errors` is set (R147). -/
def markUncorrectable (s : State) : State :=
  let k := blockNo s.expected
  { s with cur := setSlot s.cur k { getSlot s.cur k with hadErrors := true } }

/-- RECEIVE step 7. -/
def fillSlot (blk : Option Slot) (s : State) : State :=
  match blk with
  | some blk => storeBlock blk s
  | none => markUncorrectable s

/-- RECEIVE step 8: the cycle goes on whatever happened to the block (R148). -/
def advance (s : State) : State := { s with expected := nextOffset s.expected }

/-- RECEIVE step 9: when the cycle returns to A the group is emitted and a fresh one begun (R149). -/
def finishGroup (s : State) : State :=
  if s.expected = .a then { emit s.cur s with cur := Slots.fresh } else s

/-- RECEIVE (R139). Step 7 compares the block's offset with the expected one; they are equal exactly when the block is clean
or was corrected, since a failed correction leaves the observed offset, which differs. -/
def receive (raw : Raw) (obs : Option Offset) (s : State) : State :=
  let s := substitute obs s
  let had := hadErrorsFlag obs s.expected
  let s := pushErrorFlag had s
  let blk := framedBlock s.cfg raw s.expected had
  let s := lossStep blk.isNone s
  let s := fillSlot blk s
  finishGroup (advance s)

/-! ## The block step and the received bit (41_push_bit.md section 1) -/

/-- BLOCK_STEP: the search part when out of sync, then the reception part when in sync, also when the search part has just
acquired it (R132). -/
def blockStep (s : State) : State :=
  let obs := observed s.cfg.matrix s.reg
  let t := if s.inSync then s else searchStep obs s
  if t.inSync then receive s.reg obs t else t

/-- The reload of the block counter (R131). -/
def reloadCount (s : State) : State := { s with nbUntil := if s.inSync then blockLen else 1 }

/-- PUSH_BIT steps 1 and 2 (R130). -/
def takeBit (b : Bool) (s : State) : State :=
  { s with reg := shiftIn s.reg b, bitcount := s.bitcount + 1 }

/-- PUSH_BIT (R130). -/
def pushBit (b : Bool) (s : State) : State :=
  let s := takeBit b s
  let n := s.nbUntil - 1
  if n = 0 then reloadCount (blockStep s) else { s with nbUntil := n }

/-! ## RESET -/

/-- Every state element takes its reset value (70_reset_and_hazards.md R210); the configuration is no state element (R37)
and what the host presents next is not the unit's. -/
def resetUnit (s : State) : State := { State.initial s.cfg with pending := s.pending }

end Sys2Proof.Machine
end

