-- ==== Sys2Proof/Machine/GroupCommands.lean ====
section
/-! DEFINITION. The meanings of POP_GROUP, PUSH_GROUP and DISABLE_OFFSETS (42_group_bler_commands.md). -/

namespace Sys2Proof.Machine

/-- POP_GROUP: `group_ready` <- 0; `ready` still shows the group (42_group_bler_commands.md R168). -/
def execPopGroup (s : State) : Host.Outcome State Fault Refusal :=
  .next { clearOut s with groupReady := false }

/-- PUSH_GROUP: the four slots are built from the words and emitted; the decoder is untouched
(42_group_bler_commands.md R169). -/
def execPushGroup (rx1 rx2 rx3 rx4 : Bool) (w1 w2 w3 w4 : Data) (s : State) : Host.Outcome State Fault Refusal :=
  .next (emit (pushedSlots rx1 rx2 rx3 rx4 w1 w2 w3 w4) (clearOut s))

/-- DISABLE_OFFSETS: `offsets_disabled` <- 1 (42_group_bler_commands.md R170). -/
def execDisableOffsets (s : State) : Host.Outcome State Fault Refusal :=
  .next { clearOut s with offsetsDisabled := true }

end Sys2Proof.Machine
end

