-- ==== Sys2Proof/Machine/PushBit.lean ====
section
/-! DEFINITION. The meaning of PUSH_BIT (41_push_bit.md). -/

namespace Sys2Proof.Machine

/-- PUSH_BIT b (41_push_bit.md R130). -/
def execPushBit (b : Bool) (s : State) : Host.Outcome State Fault Refusal := .next (pushBit b (clearOut s))

end Sys2Proof.Machine
end

