-- ==== Sys2Proof/Machine/SystemCommands.lean ====
section
/-! DEFINITION. The meanings of NOP, RESET and the two reserved opcodes. -/

namespace Sys2Proof.Machine

/-- NOP: no state element changes and the group output is `none` (42_group_bler_commands.md R171). -/
def execNop (s : State) : Host.Outcome State Fault Refusal := .next (clearOut s)

/-- RESET (70_reset_and_hazards.md R210). -/
def execReset (s : State) : Host.Outcome State Fault Refusal := .next (resetUnit s)

/-- Opcode 0b110, reserved: executes exactly as NOP (30_encoding.md R84; notes/assumptions/11.md). -/
def execReserved6 (s : State) : Host.Outcome State Fault Refusal := .next (clearOut s)

/-- Opcode 0b111, reserved: executes exactly as NOP (30_encoding.md R84; notes/assumptions/11.md). -/
def execReserved7 (s : State) : Host.Outcome State Fault Refusal := .next (clearOut s)

end Sys2Proof.Machine
end

