-- ==== Sys2Proof/Machine/Dispatch.lean ====
section
/-! DEFINITION. One arm per command: the meaning each instruction has. -/

namespace Sys2Proof.Machine

def exec (i : Instr) (s : State) : Host.Outcome State Fault Refusal :=
  match i with
  | .nop => Sys2Proof.Machine.execNop s
  | .pushBit b => Sys2Proof.Machine.execPushBit b s
  | .popGroup => Sys2Proof.Machine.execPopGroup s
  | .pushGroup rx1 rx2 rx3 rx4 w1 w2 w3 w4 => Sys2Proof.Machine.execPushGroup rx1 rx2 rx3 rx4 w1 w2 w3 w4 s
  | .disableOffsets => Sys2Proof.Machine.execDisableOffsets s
  | .reset => Sys2Proof.Machine.execReset s
  | .reserved6 => Sys2Proof.Machine.execReserved6 s
  | .reserved7 => Sys2Proof.Machine.execReserved7 s

end Sys2Proof.Machine
end

