-- ==== Sys2Proof/Machine/Step.lean ====
section
/-! DEFINITION. One step: the next command word the host presents is decoded and executed to completion. -/

namespace Sys2Proof.Machine

/-- One step of the unit (30_encoding.md R70, 20_memory.md R58). Where no command is presented the state does not change
(60_exceptions.md R199). -/
def step (s : State) : Host.Outcome State Fault Refusal :=
  match fetch s with
  | some (w, s') => exec (decode w) s'
  | none => idle s

/-- The state in which the next step runs the command of a table row's word: the word stands first among those the host
presents. A word wider than 72 bits is no command word and changes nothing (notes/assumptions/21.md). -/
def State.withFetchWord (s : State) (nbits w : Nat) : State :=
  match tableWord nbits w with
  | some cw => present cw s
  | none => s

end Sys2Proof.Machine
end

