-- ==== Sys2Proof/Machine/Assembler.lean ====
section
/-! DEFINITION. The host's notation for command sequences: one line per command (30_encoding.md R86) and the
pseudo-commands (R87), as abstract syntax. No part of the unit. -/

namespace Sys2Proof.Machine

/-- A line of a command sequence (30_encoding.md R86, R87). -/
inductive AsmLine where
  | nop
  | pushBit (b : Bool)
  | popGroup
  /-- `PUSH_GROUP w1, w2, w3, w4, rx`, block 1's flag first: bit 3 of `rx`. -/
  | pushGroup (w1 w2 w3 w4 : Data) (rx : BitVec 4)
  | disableOffsets
  | reset
  /-- `PUSH_BITS v, n` with v an n-bit value. -/
  | pushBits (n : Nat) (v : BitVec n)
  /-- `PUSH_RAW r`. -/
  | pushRaw (r : Raw)
  /-- `PUSH_BLOCK d, o`. -/
  | pushBlock (d : Data) (o : Offset)
  /-- `PUSH_BLOCK d, o, e`. -/
  | pushBlockWithErrors (d : Data) (o : Offset) (e : Raw)

/-- A line the notation allows: `PUSH_BITS v, n` asks for 1 ≤ n (30_encoding.md R87). -/
def asmLegal : AsmLine → Bool
  | .pushBits n _ => decide (1 ≤ n)
  | .nop => true
  | .pushBit _ => true
  | .popGroup => true
  | .pushGroup _ _ _ _ _ => true
  | .disableOffsets => true
  | .reset => true
  | .pushRaw _ => true
  | .pushBlock _ _ => true
  | .pushBlockWithErrors _ _ _ => true

/-- The bits of a value, most significant first (30_encoding.md R87, 00_scope.md R11). -/
def bitsMsbFirst {n : Nat} (v : BitVec n) : List Bool := (List.range n).map fun i => v.getLsbD (n - 1 - i)

/-- The PUSH_BIT commands of a value, most significant bit first (30_encoding.md R87). -/
def pushBitsCommands {n : Nat} (v : BitVec n) : List Instr := (bitsMsbFirst v).map .pushBit

/-- The commands a line stands for (30_encoding.md R86, R87). -/
def expand : AsmLine → List Instr
  | .nop => [.nop]
  | .pushBit b => [.pushBit b]
  | .popGroup => [.popGroup]
  | .pushGroup w1 w2 w3 w4 rx =>
    [.pushGroup (rx.getLsbD 3) (rx.getLsbD 2) (rx.getLsbD 1) (rx.getLsbD 0) w1 w2 w3 w4]
  | .disableOffsets => [.disableOffsets]
  | .reset => [.reset]
  | .pushBits _ v => pushBitsCommands v
  | .pushRaw r => pushBitsCommands r
  | .pushBlock d o => pushBitsCommands (encodeBlock d o)
  | .pushBlockWithErrors d o e => pushBitsCommands (encodeBlock d o ^^^ e)

/-- The command words of a sequence of lines (30_encoding.md R86). -/
def assemble (lines : List AsmLine) : List CommandWord := (lines.flatMap expand).map encode

end Sys2Proof.Machine
end

