-- ==== Sys2Proof/Machine/Ports.lean ====
section
/-! DEFINITION. The output ports: the status registers SR0 to SR5 (10_state.md R29), the packed layout of a group
(30_encoding.md R80) and the step's group output (R70). Reading one has no effect (20_memory.md R53), so each is a
function of State. -/

namespace Sys2Proof.Machine

/-- SR0 STATUS: bit 0 `in_sync`, bit 1 `group_ready`, bit 2 `offsets_disabled` (10_state.md R29). -/
def sr0 (s : State) : BitVec 3 :=
  BitVec.ofBool s.offsetsDisabled ++ BitVec.ofBool s.groupReady ++ BitVec.ofBool s.inSync

/-- SR1 BITS_SINCE_LOST, SINCE_W bits (10_state.md R29). -/
def sr1 (s : State) : BitVec s.cfg.sinceW := BitVec.ofNat s.cfg.sinceW s.bitsSinceLost

/-- SR2 BLER_SUM, 8 bits: the sum of `blerwin`; a sum that does not fit shows a free value (10_state.md R29;
notes/assumptions/12.md). -/
def sr2 (s : State) : BitVec 8 :=
  if s.blerwin.sum < 2 ^ 8 then BitVec.ofNat 8 s.blerwin.sum else Config.sr2Overflow s.blerwin.sum

/-- SR3 BLER_PCT, 7 bits (10_state.md R29, 42_group_bler_commands.md R166). -/
def sr3 (s : State) : BitVec 7 := BitVec.ofNat 7 (blerPct s.cfg.blerN s.blerwin.sum)

/-- SR4 BLER_N, 8 bits, a constant; a parameter that does not fit shows a free value (10_state.md R29;
notes/assumptions/12.md). -/
def sr4 (s : State) : BitVec 8 :=
  if s.cfg.blerN < 2 ^ 8 then BitVec.ofNat 8 s.cfg.blerN else Config.sr4Overflow s.cfg.blerN

/-- The 47 bits of a slot: `raw` 25:0, `data` 41:26, `offset` 44:42, `is_received` 45, `had_errors` 46
(30_encoding.md R80). -/
def packSlot (sl : Slot) : BitVec 47 :=
  BitVec.ofBool sl.hadErrors ++ BitVec.ofBool sl.isReceived ++ offsetCode sl.offset ++ sl.data ++ sl.raw

/-- The 204 bits of a group; of `bler_sum` the low six bits (30_encoding.md R80). -/
def packGroup (g : Group) : BitVec 204 :=
  BitVec.ofNat 6 g.blerSum ++ BitVec.ofNat 3 g.nErr ++ BitVec.ofBool g.noOffsets ++ BitVec.ofBool g.hasType ++
    BitVec.ofBool g.typeVersion ++ g.typeNumber ++ packSlot g.slots.slot4 ++ packSlot g.slots.slot3 ++
    packSlot g.slots.slot2 ++ packSlot g.slots.slot1

/-- SR5 GROUP: `ready` in the packed layout (10_state.md R29). -/
def sr5 (s : State) : BitVec 204 := packGroup s.ready

/-- `group_valid`: 1 if the command emitted a group (30_encoding.md R70). -/
def groupValid (s : State) : Bool := s.out.isSome

end Sys2Proof.Machine
end

