-- ==== Sys2Proof/WellFormed.lean ====
section
/-! DEFINITION. The checks on commands and configurations. Every field of `Instr` has exactly the width the encoding
gives it, so every `Instr` can be encoded; what can be ill-formed is a command a host must not issue and a configuration
that is not legal. -/

namespace Sys2Proof

/-- Whether a host may issue the command: the reserved opcodes "a host must not issue" (30_encoding.md R84). The unit
executes them all the same, as NOP. -/
def Instr.issuable : Instr → Bool
  | .nop => true
  | .pushBit _ => true
  | .popGroup => true
  | .pushGroup _ _ _ _ _ _ _ _ => true
  | .disableOffsets => true
  | .reset => true
  | .reserved6 => false
  | .reserved7 => false

/-- What 40_code_functions.md R102 requires of a parity-check matrix. Its item 3 (distinct, non-zero offset syndromes) is
stated with the other two as the rule lists it. The rank of item 2 is stated as "every ten-bit value is a syndrome", which
for a 26×10 matrix is rank 10: DEDUCED, safe, notes/assumptions/18.md. -/
structure Admissible (matrix : Vector Check 26) : Prop where
  /-- Item 1: an encoded block has the syndrome of its offset word, whatever its data. -/
  codewords : ∀ (d : Data) (o : Offset),
    Machine.syndrome matrix (Machine.encodeBlock d o) = Machine.offsetSyn matrix o
  /-- Item 2: rank 10. -/
  rank : ∀ s : Check, ∃ v : Raw, Machine.syndrome matrix v = s
  /-- Item 3: the five offset syndromes are pairwise different. -/
  distinct : ∀ o₁ o₂ : Offset, Machine.offsetSyn matrix o₁ = Machine.offsetSyn matrix o₂ → o₁ = o₂
  /-- Item 3: none of them is 0. -/
  nonzero : ∀ o : Offset, Machine.offsetSyn matrix o ≠ 0

/-- A legal configuration (00_scope.md R9). -/
structure Config.Legal (cfg : Config) : Prop where
  /-- BLER_N is any integer at least 1. -/
  blerN : 1 ≤ cfg.blerN
  /-- SINCE_W is any integer at least 1. -/
  sinceW : 1 ≤ cfg.sinceW
  /-- H is any matrix meeting R102. -/
  matrix : Admissible cfg.matrix

end Sys2Proof
end

