-- ==== Sys2Proof/Safety.lean ====
section
/-! DEFINITION. The terms in which claims about runs are stated: the invariant of the state between commands
(10_state.md R38 and what the other rules say holds between commands), and the decoder's part of the state. -/

namespace Sys2Proof.Machine

/-- A slot of block number k (10_state.md R38 items 3 and 4). -/
structure SlotWf (k : BlockNo) (sl : Slot) : Prop where
  /-- A received slot's data are the top bits of its raw value. -/
  data : sl.isReceived = true → sl.data = dataOf sl.raw
  /-- A received slot carries an offset of its block number, so not `invalid`. -/
  offset : sl.isReceived = true → ∃ o, sl.offset = some o ∧ blockNo o = k
  /-- A slot not received holds nothing. -/
  missing : sl.isReceived = false → sl.raw = 0 ∧ sl.data = 0 ∧ sl.offset = none

/-- Every slot of a group. -/
def SlotsWf (slots : Slots) : Prop := ∀ k, SlotWf k (getSlot slots k)

/-- An older history entry before a newer one: entries fill from the newest end, and stamps rise (10_state.md R32, R25). -/
def OlderThan (older newer : Option Pulse) : Prop :=
  ∀ p, older = some p → ∃ q, newer = some q ∧ p.bitcount < q.bitcount

/-- The pulse history at a given `bitcount` (10_state.md R32). -/
structure HistoryWf (h : PulseHistory) (bitcount : Nat) : Prop where
  order01 : OlderThan h.pulse0 h.pulse1
  order12 : OlderThan h.pulse1 h.pulse2
  order23 : OlderThan h.pulse2 h.pulse3
  past : ∀ p, h.pulse3 = some p → p.bitcount ≤ bitcount

/-- What holds between any two commands. Items are those of 10_state.md R38 where numbered; the others are what the rules
cited say of the state between commands. -/
structure State.Inv (s : State) : Prop where
  /-- R38 item 1. -/
  nbUntil : 1 ≤ s.nbUntil ∧ s.nbUntil ≤ 26
  /-- R38 item 1. -/
  searchCount : s.inSync = false → s.nbUntil = 1
  /-- R140: `expected` is C′ only within the step that set it. R38 item 2 holds by the type of `expected`. -/
  expected : s.expected ≠ .cPrime
  /-- R38 items 3 and 4. -/
  cur : SlotsWf s.cur
  /-- R38 items 3 and 4. -/
  ready : SlotsWf s.ready.slots
  /-- R38 item 5. -/
  since : s.inSync = true → s.bitsSinceLost = 0
  /-- R31: the counter saturates. -/
  sinceBound : s.bitsSinceLost ≤ 2 ^ s.cfg.sinceW - 1
  /-- R38 item 6. -/
  searchWindow : s.inSync = false → errSum s.errwin = 0
  /-- R38 item 7: while in sync the slots still to be written in this group are fresh. -/
  ahead : s.inSync = true → ∀ k, blockNum s.expected ≤ blockNoToNat k → getSlot s.cur k = Slot.fresh
  /-- R33: the length is always 50. -/
  errwin : s.errwin.length = errwinLen
  /-- R34: the length is always BLER_N. -/
  blerwin : s.blerwin.length = s.cfg.blerN
  /-- R34: each entry is 0 to 4. -/
  blerEntries : ∀ n ∈ s.blerwin, n ≤ 4
  /-- R23, R164: the sum attached to the last group is the window's sum. -/
  readySum : s.ready.blerSum = s.blerwin.sum
  /-- R161: an error count is 0 to 4. -/
  readyErrors : s.ready.nErr ≤ 4
  /-- R70, R164: a group output is the group in `ready`, and `group_ready` is set. -/
  out : ∀ g, s.out = some g → g = s.ready ∧ s.groupReady = true
  /-- R32, R25. -/
  pulses : HistoryWf s.pulses s.bitcount
  /-- R144 with LOSS_CHECK = every_block: the sum never exceeds 45 in sync. -/
  everyBlock : s.cfg.lossCheck = .everyBlock → s.inSync = true → errSum s.errwin ≤ lossThreshold
  /-- R153: each counted error takes a block of 26 bits since the acquiring pulse, which is the newest. -/
  distance : s.inSync = true →
    ∃ p, s.pulses.pulse3 = some p ∧ p.bitcount + 26 * errSum s.errwin + (26 - s.nbUntil) ≤ s.bitcount

/-- The part of the state that drives reception: all of 10_state.md R20 but the output register, its flag, the BLER window
and `offsets_disabled`. -/
structure Decoder where
  cfg : Config
  reg : Raw
  cur : Slots
  bitcount : Nat
  nbUntil : Nat
  expected : Offset
  inSync : Bool
  bitsSinceLost : Nat
  pulses : PulseHistory
  errwin : List Bool
  deriving DecidableEq, Repr

/-- The decoder of a state. -/
def State.decoder (s : State) : Decoder where
  cfg := s.cfg
  reg := s.reg
  cur := s.cur
  bitcount := s.bitcount
  nbUntil := s.nbUntil
  expected := s.expected
  inSync := s.inSync
  bitsSinceLost := s.bitsSinceLost
  pulses := s.pulses
  errwin := s.errwin

/-- The state with another parity-check matrix in its configuration. -/
def State.withMatrix (s : State) (matrix : Vector Check 26) : State :=
  { s with cfg := { s.cfg with matrix := matrix } }

/-- Execute a list of commands one after another; every one completes, so the result is a state. -/
def execAll : List Instr → State → State
  | [], s => s
  | i :: rest, s =>
    match exec i s with
    | .next t => execAll rest t
    | .fault _ => s
    | .refused _ => s

end Sys2Proof.Machine
end

