-- ==== Sys2Proof/Certificates/Slice0/Obligations.lean ====
section
/-! DEFINITION. The statements for the provers, from the numbered rules of spec/. Statements about every state hold in
states no run reaches, and for every configuration, since State holds it; `State.Inv` and `Admissible` are premises where a
statement needs them. Three fields of State are the model's, not R20's: `pending` (notes/assumptions/1.md), `out`
(notes/assumptions/2.md) and `cfg` (notes/assumptions/3.md); that a statement says what becomes of them is the model's. What
a statement without the premise `State.Inv` says of a state that no run reaches (`nb_until` 0, a pulse stamped at or after the
latest one, C′ expected between commands) is the model's choice too (notes/assumptions/15.md). -/

open Sys2Proof Sys2Proof.Machine

/-! ## The command word -/

/-- 30_encoding.md R71: the eight rows partition all words, each row reads its fields where the table puts them, and every
other bit is ignored. -/
def Obligations.DecodeReadsTheCommandTable : Prop :=
  ∀ w : CommandWord,
    (w &&& 0xE00000000000000000 = 0x000000000000000000 ∧ decode w = .nop) ∨
    (w &&& 0xE00000000000000000 = 0x200000000000000000 ∧ decode w = .pushBit (w.getLsbD 0)) ∨
    (w &&& 0xE00000000000000000 = 0x400000000000000000 ∧ decode w = .popGroup) ∨
    (w &&& 0xE00000000000000000 = 0x600000000000000000 ∧
      decode w = .pushGroup (w.getLsbD 67) (w.getLsbD 66) (w.getLsbD 65) (w.getLsbD 64)
        (w.extractLsb' 48 16) (w.extractLsb' 32 16) (w.extractLsb' 16 16) (w.extractLsb' 0 16)) ∨
    (w &&& 0xE00000000000000000 = 0x800000000000000000 ∧ decode w = .disableOffsets) ∨
    (w &&& 0xE00000000000000000 = 0xA00000000000000000 ∧ decode w = .reset) ∨
    (w &&& 0xE00000000000000000 = 0xC00000000000000000 ∧ decode w = .reserved6) ∨
    (w &&& 0xE00000000000000000 = 0xE00000000000000000 ∧ decode w = .reserved7)

/-- Decoding and encoding agree, in both directions: a word decodes to a command exactly when the bits that are its opcode
and its fields are those of the command's encoding (30_encoding.md R71, R86). -/
def Obligations.DecodeAndEncodeAgree : Prop :=
  (∀ i : Instr, decode (encode i) = i) ∧
  (∀ (i : Instr) (w : CommandWord), decode w = i ↔ w &&& usedBits i = encode i)

/-- Words written out from the tables of 95_test_vectors.md section 2.9. -/
def Obligations.ListedWordsDecode : Prop :=
  decode 0x1FFFFFFFFFFFFFFFFF = .nop ∧
  decode 0x200000000000000001 = .pushBit true ∧
  decode 0x3FFFFFFFFFFFFFFFFE = .pushBit false ∧
  decode 0x5ABCDEF01234567899 = .popGroup ∧
  decode 0x7BD3C20400E0E14D44 = .pushGroup true false true true 0xD3C2 0x0400 0xE0E1 0x4D44 ∧
  decode 0x800000000000000000 = .disableOffsets ∧
  decode 0xA00000000000000000 = .reset ∧
  decode 0xC00000000000000000 = .reserved6 ∧
  decode 0xFFFFFFFFFFFFFFFFFF = .reserved7

/-- 30_encoding.md R87: the pseudo-commands, and R86's order of the bits of a value. -/
def Obligations.PseudoCommandsExpand : Prop :=
  (∀ (n : Nat) (v : BitVec n), (expand (.pushBits n v)).length = n ∧
    ∀ k < n, (expand (.pushBits n v))[k]? = some (.pushBit (v.getLsbD (n - 1 - k)))) ∧
  (∀ r : Raw, expand (.pushRaw r) = expand (.pushBits 26 r)) ∧
  (∀ (d : Data) (o : Offset), expand (.pushBlock d o) = expand (.pushRaw (encodeBlock d o))) ∧
  (∀ (d : Data) (o : Offset) (e : Raw),
    expand (.pushBlockWithErrors d o e) = expand (.pushRaw (encodeBlock d o ^^^ e)))

/-- 30_encoding.md R86: the word of each line of a command sequence, one line after another. -/
def Obligations.LinesAssembleToWords : Prop :=
  (∀ first rest : List AsmLine, assemble (first ++ rest) = assemble first ++ assemble rest) ∧
  assemble [.nop] = [0x000000000000000000] ∧
  (∀ b : Bool, assemble [.pushBit b] = [(0b001 : BitVec 3) ++ (0 : BitVec 68) ++ BitVec.ofBool b]) ∧
  assemble [.popGroup] = [0x400000000000000000] ∧
  (∀ (w1 w2 w3 w4 : Data) (rx : BitVec 4),
    assemble [.pushGroup w1 w2 w3 w4 rx] = [(0b011 : BitVec 3) ++ (0 : BitVec 1) ++ rx ++ w1 ++ w2 ++ w3 ++ w4]) ∧
  assemble [.disableOffsets] = [0x800000000000000000] ∧
  assemble [.reset] = [0xA00000000000000000] ∧
  assemble [.pushBit true] = [0x200000000000000001] ∧
  assemble [.pushGroup 0xD3C2 0x0C03 0xD3C2 0x4D50 0b1111] = [0x6FD3C20C03D3C24D50]

/-! ## The step -/

/-- 30_encoding.md R70 and 60_exceptions.md R199: a step executes the next command word to completion; while none is
presented the state does not change (that the words stand in a list is the model's choice, notes/assumptions/1.md). -/
def Obligations.StepRunsTheDecodedCommand : Prop :=
  (∀ (s : State) (w : CommandWord) (rest : List CommandWord), s.pending = w :: rest →
    step s = exec (decode w) { s with pending := rest }) ∧
  (∀ s : State, s.pending = [] → step s = .next s)

/-- 00_scope.md R15, 60_exceptions.md R190: every command word completes in every state, and a step takes exactly the word
presented. -/
def Obligations.EveryCommandWordCompletes : Prop :=
  ∀ (s : State) (w : CommandWord), ∃ t, step (present w s) = .next t ∧ t.pending = s.pending ∧ t.cfg = s.cfg

/-! ## The commands other than PUSH_BIT -/

/-- 42_group_bler_commands.md R171: NOP and the two reserved opcodes change no state element; their group output is
`none`. -/
def Obligations.NopChangesNothing : Prop :=
  ∀ (s : State) (w : CommandWord),
    (w.extractLsb' 69 3 = 0b000 ∨ w.extractLsb' 69 3 = 0b110 ∨ w.extractLsb' 69 3 = 0b111) →
    step (present w s) = .next { s with out := none } ∧
    exec .nop s = .next { s with out := none } ∧
    exec .reserved6 s = .next { s with out := none } ∧
    exec .reserved7 s = .next { s with out := none }

/-- 42_group_bler_commands.md R168: POP_GROUP clears `group_ready`, the port still shows the group, and with the flag
already 0 nothing changes. -/
def Obligations.PopGroupClearsTheFlagOnly : Prop :=
  ∀ (s : State) (w : CommandWord), w.extractLsb' 69 3 = 0b010 →
    step (present w s) = .next { s with groupReady := false, out := none } ∧
    exec .popGroup s = .next { s with groupReady := false, out := none } ∧
    (s.groupReady = false → exec .popGroup s = .next { s with out := none }) ∧
    sr5 { s with groupReady := false, out := none } = sr5 s

/-- 42_group_bler_commands.md R170: DISABLE_OFFSETS sets `offsets_disabled` and nothing else, the group in `ready`
included; repeating it changes nothing; and no command but RESET clears the flag. -/
def Obligations.DisableOffsetsSetsTheFlagOnly : Prop :=
  ∀ (s : State) (w : CommandWord), w.extractLsb' 69 3 = 0b100 →
    step (present w s) = .next { s with offsetsDisabled := true, out := none } ∧
    exec .disableOffsets s = .next { s with offsetsDisabled := true, out := none } ∧
    (s.offsetsDisabled = true → exec .disableOffsets s = .next { s with out := none }) ∧
    ∀ (i : Instr) (t : State), s.offsetsDisabled = true → i ≠ .reset → exec i s = .next t → t.offsetsDisabled = true

/-- 42_group_bler_commands.md R169: PUSH_GROUP emits the four slots built from its words, block 3 labelled C, and writes
`blerwin`, `ready`, `group_ready` and the group output only; its corner cases: HAS_PI depends on block 1 alone, and a version-B
group has its type only when offsets are disabled. -/
def Obligations.PushGroupEmitsTheWords : Prop :=
  ∀ (s : State) (rx1 rx2 rx3 rx4 : Bool) (w1 w2 w3 w4 : Data),
    let slot (rx : Bool) (w : Data) (o : Offset) : Slot :=
      if rx then { raw := w ++ (0 : Check), data := w, offset := some o, isReceived := true, hadErrors := false }
      else { raw := 0, data := 0, offset := none, isReceived := false, hadErrors := false }
    let slots : Slots := { slot1 := slot rx1 w1 .a, slot2 := slot rx2 w2 .b, slot3 := slot rx3 w3 .c, slot4 := slot rx4 w4 .d }
    ∃ t, exec (.pushGroup rx1 rx2 rx3 rx4 w1 w2 w3 w4) s = .next t ∧
      t = { s with blerwin := t.blerwin, ready := t.ready, groupReady := true, out := some t.ready } ∧
      t.ready.slots = slots ∧
      t.ready.nErr = (!rx1).toNat + (!rx2).toNat + (!rx3).toNat + (!rx4).toNat ∧
      t.blerwin = (s.blerwin ++ [t.ready.nErr]).drop 1 ∧
      t.ready = groupRecord s.offsetsDisabled slots t.blerwin.sum ∧
      hasPI t.ready = rx1 ∧ isEmpty t.ready = (!rx1 && !rx2 && !rx3 && !rx4) ∧
      (rx2 = true → w2.getLsbD 11 = true → t.ready.typeVersion = true ∧ t.ready.hasType = s.offsetsDisabled)

/-- 70_reset_and_hazards.md R210, R211: RESET gives every state element its reset value, whatever the state before, the
state after power-on is that state, and, the rule's example, the ports show it, for every BLER_N that fits SR4. -/
def Obligations.ResetGivesTheInitialState : Prop :=
  (∀ s : State, exec .reset s = .next {
    cfg := s.cfg
    reg := 0
    cur := Slots.fresh
    ready := { slots := Slots.fresh, typeNumber := 0, typeVersion := false, hasType := false, noOffsets := false,
               nErr := 0, blerSum := 0 }
    groupReady := false
    bitcount := 0
    nbUntil := 1
    expected := .a
    inSync := false
    offsetsDisabled := false
    bitsSinceLost := 0
    pulses := { pulse0 := none, pulse1 := none, pulse2 := none, pulse3 := none }
    errwin := List.replicate 50 false
    blerwin := List.replicate s.cfg.blerN 0
    out := none
    pending := s.pending }) ∧
  (∀ s : State, s.cfg = defaultConfig → s.pending = [] → exec .reset s = .next State.reset) ∧
  (∀ s : State, 1 ≤ s.cfg.blerN → s.cfg.blerN < 256 → ∃ t, exec .reset s = .next t ∧
    sr0 t = 0b000 ∧ sr1 t = 0 ∧ sr2 t = 0 ∧ sr3 t = 0 ∧ sr4 t = BitVec.ofNat 8 s.cfg.blerN ∧
    sr5 t = 0x0000280000000000500000000000A0000000000140000000000)

/-! ## PUSH_BIT: the received bit and the block counter -/

/-- 41_push_bit.md R130, R131: on every state PUSH_BIT completes, shifts the register left by one with the new bit at bit 0,
counts the bit, and counts down or reloads the block counter from `in_sync` as the block step left it. That `nb_until` 0, which
no run reaches, acts as 1 is the model's choice (notes/assumptions/15.md). -/
def Obligations.PushBitShiftsAndCounts : Prop :=
  ∀ (b : Bool) (s : State), ∃ t, exec (.pushBit b) s = .next t ∧
    t.reg = (s.reg <<< 1) ||| (BitVec.ofBool b).setWidth 26 ∧
    t.bitcount = s.bitcount + 1 ∧
    t.nbUntil = (if s.nbUntil ≤ 1 then (if t.inSync then 26 else 1) else s.nbUntil - 1) ∧
    t.cfg = s.cfg ∧ t.pending = s.pending ∧ t.offsetsDisabled = s.offsetsDisabled

/-- 41_push_bit.md R130: a bit inside a block is shifted in and counted, and nothing else happens. -/
def Obligations.PushBitInsideABlock : Prop :=
  ∀ (b : Bool) (s : State), 2 ≤ s.nbUntil →
    exec (.pushBit b) s = .next { s with
      reg := shiftIn s.reg b, bitcount := s.bitcount + 1, nbUntil := s.nbUntil - 1, out := none }

/-- 20_memory.md R50: once the 26 bits of a block are pushed, most significant first, the register holds the block. -/
def Obligations.PushedBlockFillsTheRegister : Prop :=
  ∀ (s : State) (r : Raw),
    (execAll (expand (.pushRaw r)) s).reg = r ∧ (execAll (expand (.pushRaw r)) s).bitcount = s.bitcount + 26

/-! ## PUSH_BIT: search and acquisition -/

/-- 41_push_bit.md R133, R134, R135: a search step that observes no offset counts the bit, saturating, and records
nothing. -/
def Obligations.SearchStepWithoutOffset : Prop :=
  ∀ (b : Bool) (s : State), s.inSync = false → s.nbUntil = 1 →
    observed s.cfg.matrix (shiftIn s.reg b) = none →
    exec (.pushBit b) s = .next { s with
      reg := shiftIn s.reg b, bitcount := s.bitcount + 1,
      bitsSinceLost := min (s.bitsSinceLost + 1) (2 ^ s.cfg.sinceW - 1), out := none }

/-- 41_push_bit.md R133, R135: a search step that observes an offset without completing a sequence pushes the pulse into
the history, oldest out, and counts the bit. -/
def Obligations.SearchStepRecordsAPulse : Prop :=
  ∀ (b : Bool) (s : State) (o : Offset), s.inSync = false → s.nbUntil = 1 →
    observed s.cfg.matrix (shiftIn s.reg b) = some o →
    let pulses : PulseHistory := {
      pulse0 := s.pulses.pulse1, pulse1 := s.pulses.pulse2, pulse2 := s.pulses.pulse3,
      pulse3 := some { offset := o, bitcount := s.bitcount + 1 } }
    sequenceFound pulses = false →
    exec (.pushBit b) s = .next { s with
      reg := shiftIn s.reg b, bitcount := s.bitcount + 1, pulses := pulses,
      bitsSinceLost := min (s.bitsSinceLost + 1) (2 ^ s.cfg.sinceW - 1), out := none }

/-- 41_push_bit.md R137: the latest pulse against each of the three earlier ones. The rule's distance is at least 1, as in
every history a run reaches; that an entry stamped at or after the latest one stands at distance 0 is the model's choice
(notes/assumptions/15.md). -/
def Obligations.SequenceFoundExactlyWhen : Prop :=
  ∀ h : PulseHistory, sequenceFound h = true ↔
    ∃ latest, h.pulse3 = some latest ∧
      ∃ p, (h.pulse0 = some p ∨ h.pulse1 = some p ∨ h.pulse2 = some p) ∧
        (latest.bitcount - p.bitcount) % 26 = 0 ∧ (latest.bitcount - p.bitcount) / 26 ≤ 6 ∧
        ((blockNum p.offset : Int) + ((latest.bitcount - p.bitcount) / 26 : Nat) - blockNum latest.offset) % 4 = 0

/-- 41_push_bit.md R132, R138: the pulse that completes a sequence acquires sync on its offset, and the block in the register
is received in the same step as the first of a fresh group; on D that group is emitted at once (R151 item 5). The premise on
`errwin` is the invariant's (10_state.md R38 item 6). -/
def Obligations.SearchStepAcquiresSync : Prop :=
  ∀ (b : Bool) (s : State) (o : Offset), s.inSync = false → s.nbUntil = 1 → errSum s.errwin = 0 →
    observed s.cfg.matrix (shiftIn s.reg b) = some o →
    let raw := shiftIn s.reg b
    let pulses : PulseHistory := {
      pulse0 := s.pulses.pulse1, pulse1 := s.pulses.pulse2, pulse2 := s.pulses.pulse3,
      pulse3 := some { offset := o, bitcount := s.bitcount + 1 } }
    let slots := setSlot Slots.fresh (blockNo o)
      { raw := raw, data := dataOf raw, offset := some o, isReceived := true, hadErrors := false }
    sequenceFound pulses = true →
    ∃ t, exec (.pushBit b) s = .next t ∧
      t = { s with
        reg := raw, bitcount := s.bitcount + 1, nbUntil := 26, inSync := true, expected := nextOffset o, bitsSinceLost := 0,
        pulses := pulses, errwin := (s.errwin ++ [false]).drop 1,
        cur := t.cur, blerwin := t.blerwin, ready := t.ready, groupReady := t.groupReady, out := t.out } ∧
      (o ≠ .d → t.cur = slots ∧ t.blerwin = s.blerwin ∧ t.ready = s.ready ∧ t.groupReady = s.groupReady ∧ t.out = none) ∧
      (o = .d → t.cur = Slots.fresh ∧ t.blerwin = (s.blerwin ++ [3]).drop 1 ∧ t.ready.slots = slots ∧ t.ready.nErr = 3 ∧
        t.groupReady = true ∧ t.out = some t.ready)

/-! ## PUSH_BIT: reception -/

/-- 41_push_bit.md R140, R142, R146, R148: in sync, a block observed at its expected offset, or at C′ where C is expected, is
stored as received and the cycle advances. The block on which sync is lost is SyncIsLostExactlyWhen's. -/
def Obligations.CleanBlockIsStored : Prop :=
  ∀ (b : Bool) (s : State) (o : Offset), s.inSync = true → s.nbUntil = 1 → s.expected ≠ .d →
    (o = s.expected ∨ s.expected = .c ∧ o = .cPrime) →
    observed s.cfg.matrix (shiftIn s.reg b) = some o →
    ¬ (s.cfg.lossCheck = .everyBlock ∧ 45 < errSum ((s.errwin ++ [false]).drop 1)) →
    let raw := shiftIn s.reg b
    exec (.pushBit b) s = .next { s with
      reg := raw, bitcount := s.bitcount + 1, nbUntil := 26, expected := nextOffset o,
      errwin := (s.errwin ++ [false]).drop 1,
      cur := setSlot s.cur (blockNo o)
        { raw := raw, data := dataOf raw, offset := some o, isReceived := true, hadErrors := false },
      out := none }

/-- 41_push_bit.md R141, R143, R146: in sync, a block whose observed offset differs from the expected one and whose syndrome
the table holds for the expected offset is stored corrected, with `had_errors`. The block on which sync is lost is
SyncIsLostExactlyWhen's. -/
def Obligations.CorrectedBlockIsStored : Prop :=
  ∀ (b : Bool) (s : State) (e : Raw), s.inSync = true → s.nbUntil = 1 → s.expected ≠ .d →
    observed s.cfg.matrix (shiftIn s.reg b) ≠ some s.expected →
    ¬ (s.expected = .c ∧ observed s.cfg.matrix (shiftIn s.reg b) = some .cPrime) →
    errLookup s.cfg.matrix (syndrome s.cfg.matrix (shiftIn s.reg b)) s.expected = some e →
    ¬ (s.cfg.lossCheck = .everyBlock ∧ 45 < errSum ((s.errwin ++ [true]).drop 1)) →
    let raw := shiftIn s.reg b ^^^ e
    exec (.pushBit b) s = .next { s with
      reg := shiftIn s.reg b, bitcount := s.bitcount + 1, nbUntil := 26, expected := nextOffset s.expected,
      errwin := (s.errwin ++ [true]).drop 1,
      cur := setSlot s.cur (blockNo s.expected)
        { raw := raw, data := dataOf raw, offset := some s.expected, isReceived := true, hadErrors := true },
      out := none }

/-- 41_push_bit.md R141, R147: in sync, a block in error that the table does not hold only marks its slot, and the cycle
advances; the received bits are not kept. -/
def Obligations.UncorrectableBlockMarksItsSlot : Prop :=
  ∀ (b : Bool) (s : State), s.inSync = true → s.nbUntil = 1 → s.expected ≠ .d →
    observed s.cfg.matrix (shiftIn s.reg b) ≠ some s.expected →
    ¬ (s.expected = .c ∧ observed s.cfg.matrix (shiftIn s.reg b) = some .cPrime) →
    errLookup s.cfg.matrix (syndrome s.cfg.matrix (shiftIn s.reg b)) s.expected = none →
    errSum ((s.errwin ++ [true]).drop 1) ≤ 45 →
    exec (.pushBit b) s = .next { s with
      reg := shiftIn s.reg b, bitcount := s.bitcount + 1, nbUntil := 26, expected := nextOffset s.expected,
      errwin := (s.errwin ++ [true]).drop 1,
      cur := setSlot s.cur (blockNo s.expected) { getSlot s.cur (blockNo s.expected) with hadErrors := true },
      out := none }

/-- 41_push_bit.md R144, R145: in sync, a block step drops sync exactly when the block is uncorrectable or the test is made
on every block, and more than 45 errors stand in the window with this block counted; it then clears the window, the search
resumes with the next bit, and the rest of the step runs as it would have: whether sync is lost or kept, the slot is filled as
the block was clean, corrected or uncorrectable (R142, R143, R147), the cycle advances, and after D the group is emitted. -/
def Obligations.SyncIsLostExactlyWhen : Prop :=
  ∀ (b : Bool) (s : State), s.inSync = true → s.nbUntil = 1 →
    let raw := shiftIn s.reg b
    let obs := observed s.cfg.matrix raw
    let o : Offset := if s.expected = .c ∧ obs = some .cPrime then .cPrime else s.expected
    let had : Bool := decide (obs ≠ some o)
    let lookup := errLookup s.cfg.matrix (syndrome s.cfg.matrix raw) o
    let uncorrectable : Prop := had = true ∧ lookup = none
    let window := (s.errwin ++ [had]).drop 1
    let filled (sl : Slot) : Slots := setSlot s.cur (blockNo o) sl
    let slots (t : State) : Slots := if o = .d then t.ready.slots else t.cur
    ∃ t, exec (.pushBit b) s = .next t ∧
      (t.inSync = false ↔ (uncorrectable ∨ s.cfg.lossCheck = .everyBlock) ∧ 45 < errSum window) ∧
      (t.inSync = true → t.errwin = window ∧ t.nbUntil = 26) ∧
      (t.inSync = false → t.errwin = List.replicate 50 false ∧ t.nbUntil = 1) ∧
      t.expected = nextOffset o ∧ t.bitsSinceLost = s.bitsSinceLost ∧ t.pulses = s.pulses ∧
      (had = false → slots t = filled
        { raw := raw, data := dataOf raw, offset := some o, isReceived := true, hadErrors := false }) ∧
      (had = true → ∀ e, lookup = some e → slots t = filled
        { raw := raw ^^^ e, data := dataOf (raw ^^^ e), offset := some o, isReceived := true, hadErrors := true }) ∧
      (uncorrectable → slots t = filled { getSlot s.cur (blockNo o) with hadErrors := true }) ∧
      (o ≠ .d → t.blerwin = s.blerwin ∧ t.ready = s.ready ∧ t.groupReady = s.groupReady ∧ t.out = none) ∧
      (o = .d → t.cur = Slots.fresh ∧ t.groupReady = true ∧ t.out = some t.ready ∧
        t.blerwin = (s.blerwin ++ [t.ready.nErr]).drop 1)

/-- 41_push_bit.md R149: after the block expected as D the group is emitted whatever it holds, a fresh one is begun, and A is
expected; slot 4 is filled as the block was clean, corrected or uncorrectable. -/
def Obligations.BlockDEmitsTheGroup : Prop :=
  ∀ (b : Bool) (s : State), s.inSync = true → s.nbUntil = 1 → s.expected = .d →
    let raw := shiftIn s.reg b
    let lookup := errLookup s.cfg.matrix (syndrome s.cfg.matrix raw) .d
    ∃ t, exec (.pushBit b) s = .next t ∧
      t.reg = raw ∧ t.bitcount = s.bitcount + 1 ∧
      t.expected = .a ∧ t.cur = Slots.fresh ∧ t.groupReady = true ∧ t.out = some t.ready ∧
      t.blerwin = (s.blerwin ++ [t.ready.nErr]).drop 1 ∧
      t.ready = groupRecord s.offsetsDisabled t.ready.slots t.blerwin.sum ∧
      (observed s.cfg.matrix raw = some .d → t.ready.slots = { s.cur with
        slot4 := { raw := raw, data := dataOf raw, offset := some .d, isReceived := true, hadErrors := false } }) ∧
      (observed s.cfg.matrix raw ≠ some .d → ∀ e, lookup = some e → t.ready.slots = { s.cur with
        slot4 := { raw := raw ^^^ e, data := dataOf (raw ^^^ e), offset := some .d, isReceived := true, hadErrors := true } }) ∧
      (observed s.cfg.matrix raw ≠ some .d → lookup = none → t.ready.slots = { s.cur with
        slot4 := { s.cur.slot4 with hadErrors := true } })

/-- 60_exceptions.md R193 item 1: one block can be uncorrectable, drop sync and emit its group, all in one command. -/
def Obligations.LossAndEmissionInOneCommand : Prop :=
  ∀ (b : Bool) (s : State), s.Inv → s.inSync = true → s.nbUntil = 1 → s.expected = .d →
    observed s.cfg.matrix (shiftIn s.reg b) ≠ some .d →
    errLookup s.cfg.matrix (syndrome s.cfg.matrix (shiftIn s.reg b)) .d = none →
    45 < errSum ((s.errwin ++ [true]).drop 1) →
    ∃ t, exec (.pushBit b) s = .next t ∧
      t.inSync = false ∧ t.groupReady = true ∧ errSum t.errwin = 0 ∧ t.cur = Slots.fresh ∧ t.expected = .a ∧
      t.ready.slots.slot4 = { raw := 0, data := 0, offset := none, isReceived := false, hadErrors := true }

/-! ## Emitted groups -/

/-- 42_group_bler_commands.md R161, R162 and 30_encoding.md R79, R70: the derived fields of every emitted group, whichever
command emitted it, and the ports that show it. -/
def Obligations.EmittedGroupFields : Prop :=
  ∀ (i : Instr) (s t : State) (g : Group), exec i s = .next t → t.out = some g →
    let errored (sl : Slot) : Prop := sl.isReceived = false ∨ sl.hadErrors = true
    g = t.ready ∧ t.groupReady = true ∧ sr5 t = packGroup g ∧ (sr0 t).getLsbD 1 = true ∧
    (g.slots.slot2.isReceived = true →
      g.typeNumber = g.slots.slot2.data.extractLsb' 12 4 ∧ g.typeVersion = g.slots.slot2.data.getLsbD 11) ∧
    (g.slots.slot2.isReceived = false → g.typeNumber = 0 ∧ g.typeVersion = false) ∧
    (g.hasType = true ↔ g.slots.slot2.isReceived = true ∧ (g.typeVersion = false ∨ s.offsetsDisabled = true ∨
      (g.slots.slot3.isReceived = true ∧ g.slots.slot3.offset = some .cPrime))) ∧
    g.noOffsets = s.offsetsDisabled ∧
    g.nErr ≤ 4 ∧
    (g.nErr = 0 ↔ ¬ errored g.slots.slot1 ∧ ¬ errored g.slots.slot2 ∧ ¬ errored g.slots.slot3 ∧ ¬ errored g.slots.slot4) ∧
    g.blerSum = t.blerwin.sum ∧ t.blerwin = (s.blerwin ++ [g.nErr]).drop 1

/-- 42_group_bler_commands.md R161: N_ERR is the number of block numbers whose slot is missing or errored, 0 to 4. -/
def Obligations.ErrorCountCountsSlots : Prop :=
  ∀ slots : Slots, nErrOf slots =
    ([BlockNo.one, .two, .three, .four].filter fun k =>
      !(getSlot slots k).isReceived || (getSlot slots k).hadErrors).length ∧ nErrOf slots ≤ 4

/-- 42_group_bler_commands.md R163: the two predicates a consumer computes. -/
def Obligations.GroupPredicates : Prop :=
  ∀ g : Group,
    (hasPI g = true ↔ g.slots.slot1.isReceived = true ∨
      (g.slots.slot3.isReceived = true ∧ g.slots.slot3.offset = some .cPrime)) ∧
    (isEmpty g = true ↔ ∀ k, (getSlot g.slots k).isReceived = false)

/-- 42_group_bler_commands.md R165: after the last of a sequence of groups has been emitted from reset, the BLER sum is the
sum of the error counts of the last BLER_N of them. -/
def Obligations.BlerIsAMovingSum : Prop :=
  ∀ (cfg : Config) (groups : List Slots), groups ≠ [] →
    (groups.foldl (fun s slots => emit slots s) (State.initial cfg)).ready.blerSum =
      ((groups.map nErrOf).drop (groups.length - cfg.blerN)).sum

/-- 42_group_bler_commands.md R166: BLER_PCT is 100·sum / (4·BLER_N) rounded to the nearest integer, halves up, is 0 to 100,
and is what SR3 shows. -/
def Obligations.BlerPercentRoundsHalfUp : Prop :=
  ∀ n sum : Nat, 1 ≤ n → sum ≤ 4 * n →
    blerPct n sum ≤ 100 ∧
    2 * (4 * n) * blerPct n sum ≤ 2 * (100 * sum) + 4 * n ∧
    2 * (100 * sum) + 4 * n < 2 * (4 * n) * (blerPct n sum + 1) ∧
    ∀ s : State, s.cfg.blerN = n → s.blerwin.sum = sum → (sr3 s).toNat = blerPct n sum

/-- 10_state.md R29: what the status ports show, between any two commands and for every BLER_N whose sum fits SR2. -/
def Obligations.StatusPortsShowTheState : Prop :=
  ∀ s : State, s.Inv → 1 ≤ s.cfg.blerN → s.cfg.blerN ≤ 63 →
    (sr0 s).getLsbD 0 = s.inSync ∧ (sr0 s).getLsbD 1 = s.groupReady ∧ (sr0 s).getLsbD 2 = s.offsetsDisabled ∧
    (sr1 s).toNat = s.bitsSinceLost ∧ (sr2 s).toNat = s.blerwin.sum ∧
    (sr3 s).toNat = blerPct s.cfg.blerN s.blerwin.sum ∧ (sr3 s).toNat ≤ 100 ∧
    (sr4 s).toNat = s.cfg.blerN ∧ sr5 s = packGroup s.ready ∧ s.ready.blerSum = s.blerwin.sum

/-- 30_encoding.md R80: where each field of a group stands on port SR5. -/
def Obligations.PackedGroupLayout : Prop :=
  ∀ g : Group,
    (packGroup g).extractLsb' 0 47 = packSlot g.slots.slot1 ∧ (packGroup g).extractLsb' 47 47 = packSlot g.slots.slot2 ∧
    (packGroup g).extractLsb' 94 47 = packSlot g.slots.slot3 ∧ (packGroup g).extractLsb' 141 47 = packSlot g.slots.slot4 ∧
    (packGroup g).extractLsb' 188 4 = g.typeNumber ∧ (packGroup g).getLsbD 192 = g.typeVersion ∧
    (packGroup g).getLsbD 193 = g.hasType ∧ (packGroup g).getLsbD 194 = g.noOffsets ∧
    (packGroup g).extractLsb' 195 3 = BitVec.ofNat 3 g.nErr ∧ (packGroup g).extractLsb' 198 6 = BitVec.ofNat 6 g.blerSum ∧
    ∀ sl : Slot, (packSlot sl).extractLsb' 0 26 = sl.raw ∧ (packSlot sl).extractLsb' 26 16 = sl.data ∧
      (packSlot sl).extractLsb' 42 3 = offsetCode sl.offset ∧ (packSlot sl).getLsbD 45 = sl.isReceived ∧
      (packSlot sl).getLsbD 46 = sl.hadErrors

/-! ## The code -/

/-- 40_code_functions.md R100: the codewords are the multiples of g(x) = x^10 + x^8 + x^7 + x^5 + x^4 + x^3 + 1 of degree below
26, and no non-zero codeword has fewer than three ones. -/
def Obligations.CodewordsAreTheMultiplesOfG : Prop :=
  (∀ v : Raw, isCodeword v = true ↔ ∃ q : BitVec 16,
    v = (List.range 16).foldl (fun r k => if q.getLsbD k then r ^^^ ((0x5B9 : Raw) <<< k) else r) 0) ∧
  (∀ v : Raw, isCodeword v = true → v ≠ 0 → 3 ≤ ((List.range 26).filter fun k => v.getLsbD k).length)

/-- 40_code_functions.md R103: the syndrome is linear, and a single 1 at bit 25−i gives row i; so it is the product of the
block with the matrix. -/
def Obligations.SyndromeIsTheMatrixProduct : Prop :=
  (∀ (matrix : Vector Check 26) (v w : Raw),
    syndrome matrix (v ^^^ w) = syndrome matrix v ^^^ syndrome matrix w) ∧
  (∀ (matrix : Vector Check 26) (i : Fin 26), syndrome matrix ((1 : Raw) <<< (25 - i.val)) = matrix[i]) ∧
  (∀ matrix : Vector Check 26, syndrome matrix 0 = 0) ∧
  syndrome defaultMatrix 0x3FFFFFF = 0x19E ∧ syndrome defaultMatrix 0x00000FC = 0x3D8

/-- 40_code_functions.md R104: CHECKWORD is the remainder of d(x)·x^10 modulo g(x), that is the one value which makes a
codeword of the data, and the XOR of the P[j] of its 1 bits; ENCODE adds the offset word. -/
def Obligations.CheckwordMakesACodeword : Prop :=
  (∀ (d : Data) (c : Check), isCodeword (d ++ c) = true ↔ c = checkword d) ∧
  (∀ a b : Data, checkword (a ^^^ b) = checkword a ^^^ checkword b) ∧
  (∀ j : Fin 16, checkword ((1 : Data) <<< j.val) =
    ([0x1B9, 0x372, 0x35D, 0x303, 0x3BF, 0x2C7, 0x037, 0x06E, 0x0DC, 0x1B8, 0x370, 0x359, 0x30B, 0x3AF, 0x2E7,
      0x077] : List Check)[j.val]!) ∧
  (∀ (d : Data) (o : Offset), dataOf (encodeBlock d o) = d ∧ checkOf (encodeBlock d o) = checkword d ^^^ offsetWord o) ∧
  (∀ o, encodeBlock 0 o = lowBits (offsetWord o)) ∧ checkword 0xFFFF = 0x0CD ∧ checkword 0xD3C2 = 0x3D4 ∧
  encodeBlock 0xD3C2 .a = 0x34F0B28

/-- 40_code_functions.md R105: the syndrome of an error-free block depends on its offset alone, and the five values. -/
def Obligations.EncodedBlockShowsItsOffset : Prop :=
  (∀ (d : Data) (o : Offset),
    syndrome defaultMatrix (encodeBlock d o) = syndrome defaultMatrix (lowBits (offsetWord o))) ∧
  offsetSyn defaultMatrix .a = 0x3D8 ∧ offsetSyn defaultMatrix .b = 0x3D4 ∧ offsetSyn defaultMatrix .c = 0x25C ∧
  offsetSyn defaultMatrix .cPrime = 0x3CC ∧ offsetSyn defaultMatrix .d = 0x258

/-- 40_code_functions.md R106 with R100 and R73: under any admissible matrix a block shows an offset exactly when it is a
codeword with that offset's word added, and none when it is no such block. -/
def Obligations.ObservedOffsetOfABlock : Prop :=
  ∀ matrix, Admissible matrix → ∀ (v : Raw) (o : Offset),
    (observed matrix v = some o ↔ isCodeword (v ^^^ lowBits (offsetWord o)) = true) ∧
    (observed matrix v = some o ↔ v = encodeBlock (dataOf v) o) ∧
    (observed matrix v = some o ↔ syndrome matrix v = syndrome matrix (lowBits (offsetWord o)))

/-- 40_code_functions.md R107: the table has 255 entries; within one offset the 51 keys are pairwise different; and a lookup
hits exactly the error vector whose key is the syndrome. -/
def Obligations.ErrorTableHoldsEveryBurst : Prop :=
  ∀ matrix, Admissible matrix →
    (errTable matrix).length = 255 ∧
    (∀ o, ((errColumn matrix o).map Prod.fst).Nodup) ∧
    (∀ (s : Check) (o : Offset) (e : Raw), errLookup matrix s o = some e ↔
      ((∃ k < 26, e = (1 : Raw) <<< k) ∨ (∃ k < 25, e = (3 : Raw) <<< k)) ∧
        syndrome matrix (e ^^^ lowBits (offsetWord o)) = s)

/-- 40_code_functions.md R108: a lookup answers what the table holds; the clean syndrome of the expected offset and the zero
syndrome never hit. -/
def Obligations.LookupReadsTheErrorTable : Prop :=
  (∀ matrix, Admissible matrix → ∀ (s : Check) (o : Offset) (e : Raw),
    errLookup matrix s o = some e ↔ (s, o, e) ∈ errTable matrix) ∧
  (∀ matrix, Admissible matrix → ∀ o,
    errLookup matrix (offsetSyn matrix o) o = none ∧ errLookup matrix 0 o = none) ∧
  errLookup defaultMatrix 0x2CD .b = some 0x0000018

/-- 40_code_functions.md R111, R109 (a): one flipped bit or two adjacent flipped bits are always repaired when the expected
offset is the transmitted one. -/
def Obligations.BurstsAreRepaired : Prop :=
  ∀ matrix, Admissible matrix → ∀ (d : Data) (o : Offset) (e : Raw),
    ((∃ k < 26, e = (1 : Raw) <<< k) ∨ (∃ k < 25, e = (3 : Raw) <<< k)) →
    correct matrix (encodeBlock d o ^^^ e) o = (true, encodeBlock d o)

/-- 40_code_functions.md R109 (b), (d): a correction that succeeds yields an error-free block of the expected offset and
flips one bit or two adjacent bits; one that fails returns the block. -/
def Obligations.CorrectionYieldsABlock : Prop :=
  ∀ matrix, Admissible matrix → ∀ (raw : Raw) (o : Offset),
    ((correct matrix raw o).1 = true →
      (correct matrix raw o).2 = encodeBlock (dataOf (correct matrix raw o).2) o ∧
      ∃ e, ((∃ k < 26, e = (1 : Raw) <<< k) ∨ (∃ k < 25, e = (3 : Raw) <<< k)) ∧ (correct matrix raw o).2 = raw ^^^ e) ∧
    ((correct matrix raw o).1 = false → (correct matrix raw o).2 = raw)

/-- 40_code_functions.md R112 items 3 and 5: which clean blocks of one offset are falsely corrected when another is expected,
under any admissible matrix. -/
def Obligations.FalseCorrectionsOfCleanBlocks : Prop :=
  ∀ matrix, Admissible matrix →
    errLookup matrix (offsetSyn matrix .a) .b = some 0x00C0000 ∧ errLookup matrix (offsetSyn matrix .b) .a = some 0x00C0000 ∧
    errLookup matrix (offsetSyn matrix .a) .d = some 0x1800000 ∧ errLookup matrix (offsetSyn matrix .d) .a = some 0x1800000 ∧
    errLookup matrix (offsetSyn matrix .b) .cPrime = some 0x0180000 ∧
    errLookup matrix (offsetSyn matrix .cPrime) .b = some 0x0180000 ∧
    errLookup matrix (offsetSyn matrix .c) .d = some 0x0040000 ∧ errLookup matrix (offsetSyn matrix .d) .c = some 0x0040000 ∧
    (∀ x y : Offset, x ≠ y →
      (x, y) ∉ [(Offset.a, Offset.b), (.b, .a), (.a, .d), (.d, .a), (.b, .cPrime), (.cPrime, .b), (.c, .d), (.d, .c)] →
      errLookup matrix (offsetSyn matrix x) y = none) ∧
    (∀ (d : Data) (e : Raw), ((∃ k < 26, e = (1 : Raw) <<< k) ∨ (∃ k < 25, e = (3 : Raw) <<< k)) →
      observed matrix (encodeBlock d .c ^^^ e) ≠ some .cPrime)

/-- 30_encoding.md R74, R75, R76 and 40_code_functions.md R110: the codes of the offsets, of which 6 and 7 are never produced,
their words, their block numbers and their cycle. -/
def Obligations.OffsetTables : Prop :=
  offsetCode (some .a) = 0 ∧ offsetCode (some .b) = 1 ∧ offsetCode (some .c) = 2 ∧ offsetCode (some .cPrime) = 3 ∧
  offsetCode (some .d) = 4 ∧ offsetCode none = 5 ∧ (∀ o, (offsetCode o).toNat ≤ 5) ∧
  offsetWord .a = 0x0FC ∧ offsetWord .b = 0x198 ∧ offsetWord .c = 0x168 ∧ offsetWord .cPrime = 0x350 ∧ offsetWord .d = 0x1B4 ∧
  blockNum .a = 1 ∧ blockNum .b = 2 ∧ blockNum .c = 3 ∧ blockNum .cPrime = 3 ∧ blockNum .d = 4 ∧
  nextOffset .a = .b ∧ nextOffset .b = .c ∧ nextOffset .c = .d ∧ nextOffset .cPrime = .d ∧ nextOffset .d = .a

/-! ## Rules about the whole machine -/

/-- 10_state.md R28: what sets and clears `offsets_disabled`, `group_ready` and `in_sync`, and what writes `ready.has_type` and
`ready.no_offsets`; no command writes one otherwise. The flags of a slot are SlotFlagsChangeOnlyAsListed's. -/
def Obligations.FlagsChangeOnlyAsListed : Prop :=
  ∀ (i : Instr) (s t : State), exec i s = .next t →
    (s.offsetsDisabled = false → t.offsetsDisabled = true → i = .disableOffsets) ∧
    (s.offsetsDisabled = true → t.offsetsDisabled = false → i = .reset) ∧
    (s.groupReady = false → t.groupReady = true → t.out ≠ none) ∧
    (s.groupReady = true → t.groupReady = false → i = .popGroup ∨ i = .reset) ∧
    (s.inSync = false → t.inSync = true → ∃ b o, i = .pushBit b ∧ observed s.cfg.matrix (shiftIn s.reg b) = some o ∧
      sequenceFound (pushPulse s.pulses o (s.bitcount + 1)) = true) ∧
    (s.inSync = true → t.inSync = false → i = .reset ∨
      ∃ b, i = .pushBit b ∧ t.errwin = List.replicate 50 false ∧ ∃ had, 45 < errSum ((s.errwin ++ [had]).drop 1)) ∧
    (t.out = none → i ≠ .reset → t.ready.hasType = s.ready.hasType ∧ t.ready.noOffsets = s.ready.noOffsets) ∧
    (t.out = none → i = .reset → t.ready.hasType = false ∧ t.ready.noOffsets = false) ∧
    (t.out ≠ none → t.ready.noOffsets = s.offsetsDisabled ∧ t.ready.hasType = hasTypeOf s.offsetsDisabled t.ready.slots)

/-- 10_state.md R28: what sets and clears `is_received` and `had_errors` of a slot; no command writes one otherwise. In the
group being assembled a flag is set only by the block step that frames the slot, in sync or on acquisition (41_push_bit.md
R146, R147), and cleared only with the whole slot, by a fresh one or by a clean block; the slots of an emitted group are those
of PUSH_GROUP, or those assembled, slot 4 filled by the block just framed. -/
def Obligations.SlotFlagsChangeOnlyAsListed : Prop :=
  ∀ (i : Instr) (s t : State), exec i s = .next t →
    let raw (b : Bool) : Raw := shiftIn s.reg b
    let obs (b : Bool) : Option Offset := observed s.cfg.matrix (raw b)
    let acquires (b : Bool) (o : Offset) : Prop :=
      s.inSync = false ∧ obs b = some o ∧ sequenceFound (pushPulse s.pulses o (s.bitcount + 1)) = true
    let replacedByFresh (k : BlockNo) : Prop := getSlot t.cur k = Slot.fresh ∧
      (i = .reset ∨ ∃ b, i = .pushBit b ∧ (t.out = some t.ready ∨ ∃ o, acquires b o))
    (∀ k, (getSlot s.cur k).isReceived = false → (getSlot t.cur k).isReceived = true →
      ∃ b, i = .pushBit b ∧ s.nbUntil ≤ 1 ∧
        (s.inSync = true ∧ blockNo s.expected = k ∨ ∃ o, acquires b o ∧ blockNo o = k)) ∧
    (∀ k, (getSlot s.cur k).isReceived = true → (getSlot t.cur k).isReceived = false → replacedByFresh k) ∧
    (∀ k, (getSlot s.cur k).hadErrors = false → (getSlot t.cur k).hadErrors = true →
      ∃ b, i = .pushBit b ∧ s.nbUntil ≤ 1 ∧ s.inSync = true ∧ blockNo s.expected = k ∧ obs b ≠ some s.expected ∧
        ¬ (s.expected = .c ∧ obs b = some .cPrime)) ∧
    (∀ k, (getSlot s.cur k).hadErrors = true → (getSlot t.cur k).hadErrors = false →
      replacedByFresh k ∨ ∃ b o, i = .pushBit b ∧ obs b = some o ∧ blockNo o = k ∧ getSlot t.cur k =
        { raw := raw b, data := dataOf (raw b), offset := some o, isReceived := true, hadErrors := false }) ∧
    (t.out = none → i ≠ .reset → t.ready.slots = s.ready.slots) ∧
    (t.out = none → i = .reset → t.ready.slots = Slots.fresh) ∧
    (t.out ≠ none →
      (∃ rx1 rx2 rx3 rx4 w1 w2 w3 w4, i = .pushGroup rx1 rx2 rx3 rx4 w1 w2 w3 w4 ∧
        t.ready.slots = pushedSlots rx1 rx2 rx3 rx4 w1 w2 w3 w4) ∨
      ∃ b, i = .pushBit b ∧
        (∀ k, k ≠ .four → getSlot t.ready.slots k = if s.inSync then getSlot s.cur k else Slot.fresh) ∧
        (t.ready.slots.slot4.hadErrors = true ↔ obs b ≠ some .d) ∧
        (obs b = some .d → t.ready.slots.slot4.isReceived = true))

/-- 41_push_bit.md R152: the transitions of (`in_sync`, `nb_until`, `expected`), which are the unit's control flow. -/
def Obligations.ControlFlowTransitions : Prop :=
  (∀ (b : Bool) (s t : State), exec (.pushBit b) s = .next t → s.inSync = false → s.nbUntil = 1 → errSum s.errwin = 0 →
    let obs := observed s.cfg.matrix (shiftIn s.reg b)
    ((∀ o, obs = some o → sequenceFound (pushPulse s.pulses o (s.bitcount + 1)) = false) →
      t.inSync = false ∧ t.nbUntil = 1 ∧ t.expected = s.expected) ∧
    (∀ o, obs = some o → sequenceFound (pushPulse s.pulses o (s.bitcount + 1)) = true →
      t.inSync = true ∧ t.nbUntil = 26 ∧ t.expected = nextOffset o)) ∧
  (∀ (b : Bool) (s t : State), exec (.pushBit b) s = .next t → s.inSync = true → 1 < s.nbUntil →
    t.inSync = true ∧ t.nbUntil = s.nbUntil - 1 ∧ t.expected = s.expected) ∧
  (∀ (b : Bool) (s t : State), exec (.pushBit b) s = .next t → s.inSync = true → s.nbUntil = 1 →
    t.expected = nextOffset s.expected ∧ (t.inSync = true → t.nbUntil = 26) ∧ (t.inSync = false → t.nbUntil = 1)) ∧
  (∀ s t : State, exec .reset s = .next t → t.inSync = false ∧ t.nbUntil = 1 ∧ t.expected = .a) ∧
  (∀ (i : Instr) (s t : State), exec i s = .next t → (∀ b, i ≠ .pushBit b) → i ≠ .reset →
    t.inSync = s.inSync ∧ t.nbUntil = s.nbUntil ∧ t.expected = s.expected)

/-- Frame of every command: only PUSH_BIT and RESET write the decoder (42_group_bler_commands.md R168 to R171); the BLER
window and `ready` change only by an emission or RESET (10_state.md R23, R34); the counters as 60_exceptions.md R196 says;
the configuration never (10_state.md R37, 70_reset_and_hazards.md R212). -/
def Obligations.CommandFrames : Prop :=
  ∀ (i : Instr) (s t : State), exec i s = .next t →
    t.cfg = s.cfg ∧ t.pending = s.pending ∧
    ((∀ b, i ≠ .pushBit b) → i ≠ .reset → t.decoder = s.decoder) ∧
    (t.out = none → i ≠ .reset → t.blerwin = s.blerwin ∧ t.ready = s.ready) ∧
    ((∃ b, i = .pushBit b) → t.bitcount = s.bitcount + 1) ∧
    ((∃ b, i = .pushBit b) → s.inSync = true → t.pulses = s.pulses ∧ t.bitsSinceLost = s.bitsSinceLost) ∧
    ((∃ b, i = .pushBit b) → s.inSync = false → errSum s.errwin = 0 → t.inSync = false →
      t.cur = s.cur ∧ t.errwin = s.errwin ∧ t.out = none) ∧
    ((∃ b, i = .pushBit b) → t.out = none → t.groupReady = s.groupReady)

/-- The invariant holds after reset, for every configuration (10_state.md R38; that no output stands and an invalid pulse is
`none` are the model's choices, notes/assumptions/2.md and 9.md). -/
def Obligations.InvariantHoldsAtReset : Prop :=
  ∀ cfg : Config, (State.initial cfg).Inv

/-- Every step keeps the invariant (10_state.md R38, and the other rules `State.Inv` cites). -/
def Obligations.InvariantIsKept : Prop :=
  ∀ s t : State, s.Inv → step s = .next t → t.Inv

/-- 41_push_bit.md R153: sync is lost at least 46 blocks, 1196 bits, after the acquiring pulse, and so no pulse recorded
before a loss can complete a sequence with one recorded after it. -/
def Obligations.StalePulsesNeverMatch : Prop :=
  ∀ (b : Bool) (s t : State), s.Inv → exec (.pushBit b) s = .next t → s.inSync = true → t.inSync = false →
    ∀ p, (t.pulses.pulse0 = some p ∨ t.pulses.pulse1 = some p ∨ t.pulses.pulse2 = some p ∨ t.pulses.pulse3 = some p) →
      p.bitcount + 1196 ≤ t.bitcount ∧
      ∀ latest : Pulse, t.bitcount ≤ latest.bitcount → pulsesMatch p latest = false

/-- 70_reset_and_hazards.md R214: two emissions by PUSH_BIT are never less than 27 commands apart. -/
def Obligations.EmissionsAreFarApart : Prop :=
  ∀ (b : Bool) (s t : State), s.Inv → exec (.pushBit b) s = .next t → t.out ≠ none →
    ∀ bits : List Bool, bits ≠ [] → bits.length ≤ 26 → (execAll (bits.map .pushBit) t).out = none

/-- 10_state.md R30, 42_group_bler_commands.md R167, R169: reception does not depend on the output register, its flag, the
BLER window or `offsets_disabled`: two states with the same decoder have the same decoder after any command. -/
def Obligations.ReceptionIgnoresTelemetry : Prop :=
  ∀ (i : Instr) (s₁ s₂ t₁ t₂ : State), s₁.decoder = s₂.decoder →
    exec i s₁ = .next t₁ → exec i s₂ = .next t₂ → t₁.decoder = t₂.decoder

/-- 40_code_functions.md R102: the choice among admissible matrices changes no state element and no output. -/
def Obligations.MatrixChoiceIsUnobservable : Prop :=
  ∀ (s t : State) (matrix : Vector Check 26), Admissible s.cfg.matrix → Admissible matrix →
    step s = .next t → step (s.withMatrix matrix) = .next (t.withMatrix matrix)

/-- 41_push_bit.md R151 item 6: a stream of zeros, or of ones, never acquires sync from reset. -/
def Obligations.ConstantStreamsNeverSync : Prop :=
  ∀ cfg : Config, Admissible cfg.matrix → ∀ (b : Bool) (n : Nat),
    (execAll (List.replicate n (.pushBit b)) (State.initial cfg)).inSync = false ∧
    (execAll (List.replicate n (.pushBit b)) (State.initial cfg)).out = none

/-- 41_push_bit.md R154: in sync at a block boundary with A expected, the four error-free blocks of a group, block 3 under C
or C′, are stored with `had_errors` = 0 and the fourth emits the group, in stream order. -/
def Obligations.CleanGroupIsEmitted : Prop :=
  ∀ (s : State) (d1 d2 d3 d4 : Data) (o3 : Offset), s.Inv → Admissible s.cfg.matrix →
    s.inSync = true → s.nbUntil = 26 → s.expected = .a → (o3 = .c ∨ o3 = .cPrime) →
    let clean (d : Data) (o : Offset) : Slot :=
      { raw := encodeBlock d o, data := d, offset := some o, isReceived := true, hadErrors := false }
    let t := execAll ([.pushBlock d1 .a, .pushBlock d2 .b, .pushBlock d3 o3, .pushBlock d4 .d].flatMap expand) s
    t.out = some t.ready ∧ t.groupReady = true ∧ t.ready.nErr = 0 ∧
    t.ready.slots = { slot1 := clean d1 .a, slot2 := clean d2 .b, slot3 := clean d3 o3, slot4 := clean d4 .d } ∧
    t.inSync = true ∧ t.nbUntil = 26 ∧ t.expected = .a ∧ t.bitcount = s.bitcount + 104

/-- 40_code_functions.md R111 with 41_push_bit.md R143, R149: in sync at a block boundary with A expected, a group sent under A,
B, C and D (block 3 under C, not C′) whose blocks are each hit by one flipped bit or two adjacent flipped bits is emitted with
the transmitted data and offsets, every block marked `had_errors`. A damaged C′ block is DamagedCPrimeBlockIsNotRecovered's. -/
def Obligations.BurstDamagedGroupIsRecovered : Prop :=
  ∀ (s : State) (d1 d2 d3 d4 : Data) (e1 e2 e3 e4 : Raw), s.Inv → Admissible s.cfg.matrix →
    s.inSync = true → s.nbUntil = 26 → s.expected = .a → s.cfg.lossCheck = .onUncorrectable →
    (∀ e ∈ [e1, e2, e3, e4], e ∈ bursts) →
    let repaired (d : Data) (o : Offset) : Slot :=
      { raw := encodeBlock d o, data := d, offset := some o, isReceived := true, hadErrors := true }
    let t := execAll ([.pushBlockWithErrors d1 .a e1, .pushBlockWithErrors d2 .b e2, .pushBlockWithErrors d3 .c e3,
      .pushBlockWithErrors d4 .d e4].flatMap expand) s
    t.out = some t.ready ∧ t.ready.nErr = 4 ∧
    t.ready.slots = { slot1 := repaired d1 .a, slot2 := repaired d2 .b, slot3 := repaired d3 .c, slot4 := repaired d4 .d } ∧
    t.inSync = true ∧ t.expected = .a

/-- 41_push_bit.md R151 item 3, 40_code_functions.md R109 (c): while C is expected, a block sent under C′ and hit by one flipped
bit or two adjacent flipped bits shows neither C nor C′ and is not recovered. The lookup under C misses, so the block is
uncorrectable, but for two bursts, on which it hits with another burst and the block stored is a C block of wrong data: there the
table of R107 and not the "any error" of R151 item 3 is followed (notes/assumptions/22.md). -/
def Obligations.DamagedCPrimeBlockIsNotRecovered : Prop :=
  ∀ matrix, Admissible matrix → ∀ (d : Data) (e : Raw),
    ((∃ k < 26, e = (1 : Raw) <<< k) ∨ (∃ k < 25, e = (3 : Raw) <<< k)) →
    let raw := encodeBlock d .cPrime ^^^ e
    observed matrix raw ≠ some .c ∧ observed matrix raw ≠ some .cPrime ∧
    (e ≠ 0x0100000 → e ≠ 0x1800000 → errLookup matrix (syndrome matrix raw) .c = none) ∧
    (e = 0x0100000 → correct matrix raw .c = (true, encodeBlock (d ^^^ 0x6400) .c)) ∧
    (e = 0x1800000 → correct matrix raw .c = (true, encodeBlock (d ^^^ 0x6400) .c))
end

