-- ==== Sys2Proof/Laws/Code.lean ====
section
/-! SUPPORT. What the functions of 40_code_functions.md do: linearity of the syndrome and of the remainder, the kernel of
an admissible matrix, the offsets a block shows, the error table and the corrector. -/

namespace Sys2Proof.Machine

/-! ## Linearity -/

/-- One row's share of a syndrome. -/
def rowTerm (matrix : Vector Check 26) (v : Raw) (i : Nat) : Check :=
  if v.getLsbD (25 - i) then matrix.toList.getD i 0 else 0

theorem rowTerm_xor (matrix : Vector Check 26) (v w : Raw) (i : Nat) :
    rowTerm matrix (v ^^^ w) i = rowTerm matrix v i ^^^ rowTerm matrix w i := by
  unfold rowTerm
  rw [BitVec.getLsbD_xor]
  cases v.getLsbD (25 - i) <;> cases w.getLsbD (25 - i) <;> simp

theorem syndrome_eq_fold (matrix : Vector Check 26) (v : Raw) :
    syndrome matrix v = (List.range 26).foldl (fun s i => s ^^^ rowTerm matrix v i) 0 := by
  unfold syndrome rowTerm
  congr 1
  funext s i
  split <;> simp

theorem foldl_xor_xor (f g : Nat → Check) (l : List Nat) (a b : Check) :
    l.foldl (fun s i => s ^^^ (f i ^^^ g i)) (a ^^^ b) =
      l.foldl (fun s i => s ^^^ f i) a ^^^ l.foldl (fun s i => s ^^^ g i) b := by
  induction l generalizing a b with
  | nil => rfl
  | cons i l ih =>
    simp only [List.foldl_cons]
    rw [← ih]
    congr 1
    ac_rfl

/-- The syndrome is linear (R103). -/
theorem syndrome_xor (matrix : Vector Check 26) (v w : Raw) :
    syndrome matrix (v ^^^ w) = syndrome matrix v ^^^ syndrome matrix w := by
  simp only [syndrome_eq_fold, rowTerm_xor]
  have h := foldl_xor_xor (rowTerm matrix v) (rowTerm matrix w) (List.range 26) 0 0
  simpa using h

@[simp] theorem syndrome_zero (matrix : Vector Check 26) : syndrome matrix 0 = 0 := by
  have h := syndrome_xor matrix 0 0
  simpa using h

/-- One step of the division by g(x). -/
def remainderStep (r : Raw) (i : Nat) : Raw :=
  if r.getLsbD (25 - i) then r ^^^ (generator <<< (15 - i)) else r

theorem remainderStep_xor (r t : Raw) (i : Nat) :
    remainderStep (r ^^^ t) i = remainderStep r i ^^^ remainderStep t i := by
  unfold remainderStep
  rw [BitVec.getLsbD_xor]
  cases r.getLsbD (25 - i) <;> cases t.getLsbD (25 - i) <;> simp
  · ac_rfl
  · ac_rfl
  · rw [show r ^^^ generator <<< (15 - i) ^^^ (t ^^^ generator <<< (15 - i)) =
      (generator <<< (15 - i) ^^^ generator <<< (15 - i)) ^^^ (r ^^^ t) by ac_rfl]
    simp

theorem foldl_remainderStep_xor (l : List Nat) (r t : Raw) :
    l.foldl remainderStep (r ^^^ t) = l.foldl remainderStep r ^^^ l.foldl remainderStep t := by
  induction l generalizing r t with
  | nil => rfl
  | cons i l ih => simp only [List.foldl_cons, remainderStep_xor, ih]

theorem checkOf_xor (r t : Raw) : checkOf (r ^^^ t) = checkOf r ^^^ checkOf t := by
  unfold checkOf
  ext i hi
  simp

/-- The remainder modulo g(x) is linear (R104). -/
theorem remainder_xor (v w : Raw) : remainder (v ^^^ w) = remainder v ^^^ remainder w := by
  show checkOf ((List.range 16).foldl remainderStep (v ^^^ w)) = _
  rw [foldl_remainderStep_xor, checkOf_xor]
  rfl

/-! ## A block is data and a checkword -/

theorem dataOf_append (d : Data) (c : Check) : dataOf (d ++ c) = d := by
  unfold dataOf
  ext i hi
  have h : (d ++ c).getLsbD (10 + i) = d.getLsbD i := by
    rw [BitVec.getLsbD_append]
    simp
  simpa [BitVec.getLsbD_eq_getElem hi] using h

theorem checkOf_append (d : Data) (c : Check) : checkOf (d ++ c) = c := by
  unfold checkOf
  ext i hi
  have h : (d ++ c).getLsbD i = c.getLsbD i := by
    rw [BitVec.getLsbD_append]
    simp [hi]
  simpa [BitVec.getLsbD_eq_getElem hi] using h

theorem append_dataOf_checkOf (v : Raw) : (dataOf v ++ checkOf v : Raw) = v := by
  unfold dataOf checkOf
  ext i hi
  simp only [BitVec.getElem_append, BitVec.getElem_extractLsb']
  split
  · simp [BitVec.getLsbD_eq_getElem hi]
  · rename_i h
    have : 10 + (i - 10) = i := by omega
    simp [this, BitVec.getLsbD_eq_getElem hi]

theorem append_eq_xor (d : Data) (c : Check) : (d ++ c : Raw) = (d ++ (0 : Check) : Raw) ^^^ lowBits c := by
  unfold lowBits
  ext i hi
  simp only [BitVec.getElem_append, BitVec.getElem_xor, BitVec.getElem_setWidth]
  split
  · simp_all
  · rename_i h
    simp [BitVec.getLsbD_of_ge c i (by omega)]

theorem lowBits_xor (a b : Check) : lowBits (a ^^^ b) = lowBits a ^^^ lowBits b := by
  unfold lowBits
  ext i hi
  simp

/-! ## A linear function is known from its values on single bits -/

theorem linear_eq_zero {n m : Nat} (f : BitVec n → BitVec m) (hxor : ∀ a b, f (a ^^^ b) = f a ^^^ f b)
    (hbit : ∀ i < n, f (BitVec.twoPow n i) = 0) (v : BitVec n) : f v = 0 := by
  have hzero : f 0 = 0 := by simpa using hxor 0 0
  have key : ∀ k, k ≤ n → ∀ w : BitVec n, (∀ i, k ≤ i → w.getLsbD i = false) → f w = 0 := by
    intro k
    induction k with
    | zero =>
      intro _ w hw
      have : w = 0 := BitVec.eq_of_getLsbD_eq fun i _ => by simpa using hw i (Nat.zero_le i)
      rw [this, hzero]
    | succ k ih =>
      intro hk w hw
      by_cases hb : w.getLsbD k = true
      · have hw' : f (w ^^^ BitVec.twoPow n k) = 0 := by
          apply ih (by omega)
          intro i hi
          rw [BitVec.getLsbD_xor, BitVec.getLsbD_twoPow]
          by_cases hik : i = k
          · subst hik
            simp [hb]
            omega
          · rw [hw i (by omega)]
            simp
            omega
        rw [hxor, hbit k (by omega)] at hw'
        simpa using hw'
      · apply ih (by omega)
        intro i hi
        by_cases hik : i = k
        · subst hik
          simpa using hb
        · exact hw i (by omega)
  exact key n (Nat.le_refl n) v fun i hi => BitVec.getLsbD_of_ge v i hi

/-! ## The remainder -/

/-- Row i is x^(25−i) modulo g(x): the P of R104 for the data bits, single bits for the checkword. -/
def remainderMatrix : Vector Check 26 :=
  #v[0x077, 0x2E7, 0x3AF, 0x30B, 0x359, 0x370, 0x1B8, 0x0DC, 0x06E, 0x037, 0x2C7, 0x3BF, 0x303, 0x35D, 0x372, 0x1B9,
     0x200, 0x100, 0x080, 0x040, 0x020, 0x010, 0x008, 0x004, 0x002, 0x001]

/-- The remainder as a sum of rows (R104: "Equivalently CHECKWORD(d) is the XOR, over the 1 bits j of d, of P[j]"): the form
to evaluate. -/
theorem remainder_eq_rows (v : Raw) : remainder v = syndrome remainderMatrix v := by
  have h : ∀ v : Raw, remainder v ^^^ syndrome remainderMatrix v = 0 := by
    apply linear_eq_zero fun v : Raw => remainder v ^^^ syndrome remainderMatrix v
    · intro a b
      rw [remainder_xor, syndrome_xor]
      ac_rfl
    · intro i hi
      interval_cases i <;>
        simp [remainder, List.range, List.range.loop, generator, checkOf, syndrome, remainderMatrix, BitVec.twoPow]
  exact BitVec.xor_eq_zero_iff.mp (h v)

@[simp] theorem remainder_lowBits (c : Check) : remainder (lowBits c) = c := by
  have h : ∀ c : Check, remainder (lowBits c) ^^^ c = 0 := by
    apply linear_eq_zero (fun c => remainder (lowBits c) ^^^ c)
    · intro a b
      show remainder (lowBits (a ^^^ b)) ^^^ (a ^^^ b) = (remainder (lowBits a) ^^^ a) ^^^ (remainder (lowBits b) ^^^ b)
      rw [lowBits_xor, remainder_xor]
      ac_rfl
    · decide +kernel
  exact BitVec.xor_eq_zero_iff.mp (h c)

/-- The remainder of a block is its checkword against the one its data ask for (R104). -/
theorem remainder_eq (v : Raw) : remainder v = checkword (dataOf v) ^^^ checkOf v := by
  have h : v = (dataOf v ++ (0 : Check) : Raw) ^^^ lowBits (checkOf v) := by
    rw [← append_eq_xor, append_dataOf_checkOf]
  conv => lhs; rw [h]
  rw [remainder_xor, remainder_lowBits]
  rfl

theorem dataOf_encodeBlock (d : Data) (o : Offset) : dataOf (encodeBlock d o) = d := dataOf_append _ _

/-- What is left of an error-free block is its offset word (R73, R104). -/
@[simp] theorem remainder_encodeBlock (d : Data) (o : Offset) : remainder (encodeBlock d o) = offsetWord o := by
  rw [remainder_eq, dataOf_encodeBlock]
  unfold encodeBlock
  rw [checkOf_append, ← BitVec.xor_assoc]
  simp

/-- Blocks with equal data and remainder are equal. -/
theorem eq_of_dataOf_remainder {v w : Raw} (hd : dataOf v = dataOf w) (hr : remainder v = remainder w) : v = w := by
  rw [remainder_eq, remainder_eq, hd] at hr
  have hc : checkOf v = checkOf w := by
    have := congrArg (checkword (dataOf w) ^^^ ·) hr
    simpa [← BitVec.xor_assoc] using this
  rw [← append_dataOf_checkOf v, ← append_dataOf_checkOf w, hd, hc]

theorem block_eq (v : Raw) : v = encodeBlock (dataOf v) .a ^^^ lowBits (offsetWord .a ^^^ remainder v) := by
  apply eq_of_dataOf_remainder
  · have hl : ∀ c : Check, dataOf (lowBits c) = 0 := by
      intro c
      unfold dataOf lowBits
      ext i hi
      simp
    have hx : ∀ a b : Raw, dataOf (a ^^^ b) = dataOf a ^^^ dataOf b := by
      intro a b
      unfold dataOf
      ext i hi
      simp
    rw [hx, hl, dataOf_encodeBlock]
    simp
  · rw [remainder_xor, remainder_encodeBlock, remainder_lowBits, ← BitVec.xor_assoc]
    simp

/-! ## Admissible matrices (R102) -/

/-- Under an admissible matrix a syndrome depends on the remainder alone. -/
theorem syndrome_eq_of_remainder {matrix : Vector Check 26} (h : Admissible matrix) (v : Raw) :
    syndrome matrix v = syndrome matrix (lowBits (remainder v)) := by
  conv => lhs; rw [block_eq v]
  rw [syndrome_xor, h.codewords, lowBits_xor, syndrome_xor]
  unfold offsetSyn
  rw [← BitVec.xor_assoc]
  simp

/-- Under an admissible matrix equal syndromes are equal remainders, so any two admissible matrices tell the same blocks
apart (R102). -/
theorem syndrome_eq_iff {matrix : Vector Check 26} (h : Admissible matrix) (v w : Raw) :
    syndrome matrix v = syndrome matrix w ↔ remainder v = remainder w := by
  constructor
  · intro hs
    have hsurj : Function.Surjective fun c : Check => syndrome matrix (lowBits c) := by
      intro s
      obtain ⟨v, hv⟩ := h.rank s
      exact ⟨remainder v, by rw [← hv, syndrome_eq_of_remainder h v]⟩
    have hinj := Finite.injective_iff_surjective.mpr hsurj
    apply hinj
    show syndrome matrix (lowBits (remainder v)) = syndrome matrix (lowBits (remainder w))
    rw [← syndrome_eq_of_remainder h, ← syndrome_eq_of_remainder h, hs]
  · intro hr
    rw [syndrome_eq_of_remainder h, syndrome_eq_of_remainder h w, hr]

theorem syndrome_eq_offsetSyn_iff {matrix : Vector Check 26} (h : Admissible matrix) (v : Raw) (o : Offset) :
    syndrome matrix v = offsetSyn matrix o ↔ remainder v = offsetWord o := by
  unfold offsetSyn
  rw [syndrome_eq_iff h, remainder_lowBits]

theorem offsetWord_injective {o₁ o₂ : Offset} (h : offsetWord o₁ = offsetWord o₂) : o₁ = o₂ := by
  cases o₁ <;> cases o₂ <;> revert h <;> decide

/-- The matrix of R101 is admissible (R102: "With the matrix of R101, conditions 1 to 3 hold"). -/
theorem defaultMatrix_admissible : Admissible defaultMatrix where
  codewords := by
    intro d o
    have hcheck : ∀ a b : Data, checkword (a ^^^ b) = checkword a ^^^ checkword b := by
      intro a b
      unfold checkword
      rw [← remainder_xor]
      congr 1
      ext i hi
      simp only [BitVec.getElem_append, BitVec.getElem_xor]
      split <;> simp
    have hcode : ∀ d : Data, syndrome defaultMatrix (d ++ checkword d) = 0 := by
      apply linear_eq_zero fun d : Data => syndrome defaultMatrix (d ++ checkword d)
      · intro a b
        rw [← syndrome_xor, hcheck]
        congr 1
        ext i hi
        simp only [BitVec.getElem_append, BitVec.getElem_xor]
        split <;> rfl
      · decide +kernel
    have henc : encodeBlock d o = (d ++ checkword d : Raw) ^^^ lowBits (offsetWord o) := by
      unfold encodeBlock
      rw [append_eq_xor, lowBits_xor, ← BitVec.xor_assoc, ← append_eq_xor]
    rw [henc, syndrome_xor, hcode]
    simp [offsetSyn]
  rank := by
    intro s
    refine ⟨s ++ (0 : BitVec 16), ?_⟩
    have h : ∀ s : Check, syndrome defaultMatrix (s ++ (0 : BitVec 16)) ^^^ s = 0 := by
      apply linear_eq_zero fun s : Check => syndrome defaultMatrix (s ++ (0 : BitVec 16)) ^^^ s
      · intro a b
        have : ((a ^^^ b) ++ (0 : BitVec 16) : Raw) = (a ++ (0 : BitVec 16) : Raw) ^^^ (b ++ (0 : BitVec 16) : Raw) := by
          ext i hi
          simp only [BitVec.getElem_append, BitVec.getElem_xor]
          split <;> simp
        show syndrome defaultMatrix ((a ^^^ b) ++ (0 : BitVec 16) : Raw) ^^^ (a ^^^ b) = _
        rw [this, syndrome_xor]
        ac_rfl
      · decide +kernel
    exact BitVec.xor_eq_zero_iff.mp (h s)
  distinct := by
    intro o₁ o₂
    cases o₁ <;> cases o₂ <;> decide
  nonzero := by
    intro o
    cases o <;> decide

end Sys2Proof.Machine
end

