-- ==== Sys2Proof/Laws/Corrector.lean ====
section
/-! SUPPORT. What OFFSET_OF, ERR_LOOKUP and CORRECT answer under an admissible matrix, in terms of the remainder alone. -/

namespace Sys2Proof.Machine

/-! ## The observed offset -/

theorem offsetOf_eq_some {matrix : Vector Check 26} (h : Admissible matrix) (s : Check) (o : Offset) :
    offsetOf matrix s = some o ↔ s = offsetSyn matrix o := by
  unfold offsetOf
  constructor
  · intro hs
    repeat' split at hs
    all_goals simp at hs
    all_goals subst hs; assumption
  · rintro rfl
    repeat' split
    all_goals first
      | (rename_i he; exact congrArg some (h.distinct _ _ he).symm)
      | (cases o <;> contradiction)

/-- An error-free block is one whose remainder is an offset word, and that is what reveals its offset (R106, R73). -/
theorem observed_eq_some {matrix : Vector Check 26} (h : Admissible matrix) (v : Raw) (o : Offset) :
    observed matrix v = some o ↔ remainder v = offsetWord o := by
  unfold observed
  rw [offsetOf_eq_some h, syndrome_eq_offsetSyn_iff h]

theorem observed_encodeBlock {matrix : Vector Check 26} (h : Admissible matrix) (d : Data) (o : Offset) :
    observed matrix (encodeBlock d o) = some o := by
  rw [observed_eq_some h, remainder_encodeBlock]

/-- Any two admissible matrices observe the same offset (R102). -/
theorem observed_eq_observed {m₁ m₂ : Vector Check 26} (h₁ : Admissible m₁) (h₂ : Admissible m₂) (v : Raw) :
    observed m₁ v = observed m₂ v := by
  apply Option.ext
  intro o
  rw [observed_eq_some h₁, observed_eq_some h₂]

/-! ## The error table -/

/-- The remainder an error vector leaves on an error-free block of an offset. -/
def burstRemainder (o : Offset) (e : Raw) : Check := remainder e ^^^ offsetWord o

theorem burstKey_eq_syndrome_iff {matrix : Vector Check 26} (h : Admissible matrix) (o : Offset) (e v : Raw) :
    burstKey matrix o e = syndrome matrix v ↔ burstRemainder o e = remainder v := by
  unfold burstKey burstRemainder
  rw [syndrome_eq_iff h, remainder_xor, remainder_lowBits]

/-- The lookup of a block's syndrome, in terms of its remainder. -/
theorem errLookup_syndrome {matrix : Vector Check 26} (h : Admissible matrix) (v : Raw) (o : Offset) :
    errLookup matrix (syndrome matrix v) o = bursts.find? fun e => burstRemainder o e == remainder v := by
  unfold errLookup errColumn
  induction bursts with
  | nil => rfl
  | cons e l ih =>
    simp only [List.map_cons, List.find?_cons]
    have hb : (burstKey matrix o e == syndrome matrix v) = (burstRemainder o e == remainder v) := by
      rw [Bool.eq_iff_iff, beq_iff_eq, beq_iff_eq]
      exact burstKey_eq_syndrome_iff h o e v
    rw [hb]
    split
    · rfl
    · exact ih

/-- One flipped bit or two adjacent flipped bits (R107). -/
theorem mem_bursts (e : Raw) : e ∈ bursts ↔ 
    (∃ k < 26, e = (1 : Raw) <<< k) ∨ (∃ k < 25, e = (3 : Raw) <<< k) := by
  simp [bursts, List.mem_append, List.mem_map, eq_comm]

/-- The 51 error vectors leave pairwise different remainders (R107: within one offset the keys are pairwise different). -/
theorem burst_remainders_distinct : (bursts.map remainder).Nodup := by
  rw [funext remainder_eq_rows]
  decide +kernel

theorem bursts_length : bursts.length = 51 := by decide

theorem remainder_injOn_bursts {e f : Raw} (he : e ∈ bursts) (hf : f ∈ bursts) (h : remainder e = remainder f) : e = f :=
  List.inj_on_of_nodup_map burst_remainders_distinct he hf h

theorem remainder_burst_ne_zero {e : Raw} (he : e ∈ bursts) : remainder e ≠ 0 := by
  have h : (0 : Check) ∉ bursts.map (syndrome remainderMatrix) := by decide +kernel
  rw [remainder_eq_rows]
  exact fun h0 => h (List.mem_map.mpr ⟨e, he, h0⟩)

/-- A lookup hits exactly the burst that leaves the block's remainder (R107, R108). -/
theorem errLookup_eq_some {matrix : Vector Check 26} (h : Admissible matrix) (v : Raw) (o : Offset) (e : Raw) :
    errLookup matrix (syndrome matrix v) o = some e ↔ e ∈ bursts ∧ burstRemainder o e = remainder v := by
  rw [errLookup_syndrome h]
  constructor
  · intro hf
    exact ⟨List.mem_of_find?_eq_some hf, by simpa using List.find?_some hf⟩
  · rintro ⟨hm, hr⟩
    have hsome : (bursts.find? fun e => burstRemainder o e == remainder v).isSome := by
      rw [List.find?_isSome]
      exact ⟨e, hm, by simpa using hr⟩
    obtain ⟨f, hf⟩ := Option.isSome_iff_exists.mp hsome
    have hfr : burstRemainder o f = remainder v := by simpa using List.find?_some hf
    have hxor : remainder f = remainder e := by
      have := hfr.trans hr.symm
      unfold burstRemainder at this
      simpa using this
    rw [hf, remainder_injOn_bursts (List.mem_of_find?_eq_some hf) hm hxor]

/-- A lookup misses exactly when no burst leaves what the block shows (R108). -/
theorem errLookup_eq_none {m : Vector Check 26} (h : Admissible m) (v : Raw) (o : Offset) :
    errLookup m (syndrome m v) o = none ↔ remainder v ^^^ offsetWord o ∉ bursts.map remainder := by
  rw [Option.eq_none_iff_forall_ne_some]
  simp only [ne_eq, errLookup_eq_some h, List.mem_map, not_exists, not_and, burstRemainder]
  constructor <;> intro H e he hr
  · apply H e he; rw [hr, BitVec.xor_assoc]; simp
  · apply H e he; rw [← hr, BitVec.xor_assoc]; simp

/-! ## The corrector -/

theorem correct_of_hit {matrix : Vector Check 26} {raw e : Raw} {o : Offset}
    (h : errLookup matrix (syndrome matrix raw) o = some e) : correct matrix raw o = (true, raw ^^^ e) := by
  unfold correct
  rw [h]

theorem correct_of_miss {matrix : Vector Check 26} {raw : Raw} {o : Offset}
    (h : errLookup matrix (syndrome matrix raw) o = none) : correct matrix raw o = (false, raw) := by
  unfold correct
  rw [h]

/-- Any two admissible matrices correct alike (R102). -/
theorem correct_eq_correct {m₁ m₂ : Vector Check 26} (h₁ : Admissible m₁) (h₂ : Admissible m₂) (raw : Raw) (o : Offset) :
    correct m₁ raw o = correct m₂ raw o := by
  unfold correct
  rw [errLookup_syndrome h₁, errLookup_syndrome h₂]

end Sys2Proof.Machine
end

