-- ==== Sys2Proof/Laws/State.lean ====
section
/-! SUPPORT. One lemma per field for every named update of State, true by rfl, so that no later proof unfolds a record
update. -/

namespace Sys2Proof.Machine

variable (s : State)

/-! ## clearOut: The group output begins as `none`. -/

@[simp] theorem clearOut_cfg : (clearOut s).cfg = s.cfg := rfl
@[simp] theorem clearOut_reg : (clearOut s).reg = s.reg := rfl
@[simp] theorem clearOut_cur : (clearOut s).cur = s.cur := rfl
@[simp] theorem clearOut_ready : (clearOut s).ready = s.ready := rfl
@[simp] theorem clearOut_groupReady : (clearOut s).groupReady = s.groupReady := rfl
@[simp] theorem clearOut_bitcount : (clearOut s).bitcount = s.bitcount := rfl
@[simp] theorem clearOut_nbUntil : (clearOut s).nbUntil = s.nbUntil := rfl
@[simp] theorem clearOut_expected : (clearOut s).expected = s.expected := rfl
@[simp] theorem clearOut_inSync : (clearOut s).inSync = s.inSync := rfl
@[simp] theorem clearOut_offsetsDisabled : (clearOut s).offsetsDisabled = s.offsetsDisabled := rfl
@[simp] theorem clearOut_bitsSinceLost : (clearOut s).bitsSinceLost = s.bitsSinceLost := rfl
@[simp] theorem clearOut_pulses : (clearOut s).pulses = s.pulses := rfl
@[simp] theorem clearOut_errwin : (clearOut s).errwin = s.errwin := rfl
@[simp] theorem clearOut_blerwin : (clearOut s).blerwin = s.blerwin := rfl
@[simp] theorem clearOut_out : (clearOut s).out = none := rfl
@[simp] theorem clearOut_pending : (clearOut s).pending = s.pending := rfl

/-! ## present: Presenting a word. -/

@[simp] theorem present_cfg (w : CommandWord) : (present w s).cfg = s.cfg := rfl
@[simp] theorem present_reg (w : CommandWord) : (present w s).reg = s.reg := rfl
@[simp] theorem present_cur (w : CommandWord) : (present w s).cur = s.cur := rfl
@[simp] theorem present_ready (w : CommandWord) : (present w s).ready = s.ready := rfl
@[simp] theorem present_groupReady (w : CommandWord) : (present w s).groupReady = s.groupReady := rfl
@[simp] theorem present_bitcount (w : CommandWord) : (present w s).bitcount = s.bitcount := rfl
@[simp] theorem present_nbUntil (w : CommandWord) : (present w s).nbUntil = s.nbUntil := rfl
@[simp] theorem present_expected (w : CommandWord) : (present w s).expected = s.expected := rfl
@[simp] theorem present_inSync (w : CommandWord) : (present w s).inSync = s.inSync := rfl
@[simp] theorem present_offsetsDisabled (w : CommandWord) : (present w s).offsetsDisabled = s.offsetsDisabled := rfl
@[simp] theorem present_bitsSinceLost (w : CommandWord) : (present w s).bitsSinceLost = s.bitsSinceLost := rfl
@[simp] theorem present_pulses (w : CommandWord) : (present w s).pulses = s.pulses := rfl
@[simp] theorem present_errwin (w : CommandWord) : (present w s).errwin = s.errwin := rfl
@[simp] theorem present_blerwin (w : CommandWord) : (present w s).blerwin = s.blerwin := rfl
@[simp] theorem present_out (w : CommandWord) : (present w s).out = s.out := rfl
@[simp] theorem present_pending (w : CommandWord) : (present w s).pending = w :: s.pending := rfl

/-! ## emit: EMIT (R164). -/

@[simp] theorem emit_cfg (slots : Slots) : (emit slots s).cfg = s.cfg := rfl
@[simp] theorem emit_reg (slots : Slots) : (emit slots s).reg = s.reg := rfl
@[simp] theorem emit_cur (slots : Slots) : (emit slots s).cur = s.cur := rfl
@[simp] theorem emit_ready (slots : Slots) : (emit slots s).ready = groupRecord s.offsetsDisabled slots (pushWindow s.blerwin (nErrOf slots)).sum := rfl
@[simp] theorem emit_groupReady (slots : Slots) : (emit slots s).groupReady = true := rfl
@[simp] theorem emit_bitcount (slots : Slots) : (emit slots s).bitcount = s.bitcount := rfl
@[simp] theorem emit_nbUntil (slots : Slots) : (emit slots s).nbUntil = s.nbUntil := rfl
@[simp] theorem emit_expected (slots : Slots) : (emit slots s).expected = s.expected := rfl
@[simp] theorem emit_inSync (slots : Slots) : (emit slots s).inSync = s.inSync := rfl
@[simp] theorem emit_offsetsDisabled (slots : Slots) : (emit slots s).offsetsDisabled = s.offsetsDisabled := rfl
@[simp] theorem emit_bitsSinceLost (slots : Slots) : (emit slots s).bitsSinceLost = s.bitsSinceLost := rfl
@[simp] theorem emit_pulses (slots : Slots) : (emit slots s).pulses = s.pulses := rfl
@[simp] theorem emit_errwin (slots : Slots) : (emit slots s).errwin = s.errwin := rfl
@[simp] theorem emit_blerwin (slots : Slots) : (emit slots s).blerwin = pushWindow s.blerwin (nErrOf slots) := rfl
@[simp] theorem emit_out (slots : Slots) : (emit slots s).out = some (groupRecord s.offsetsDisabled slots (pushWindow s.blerwin (nErrOf slots)).sum) := rfl
@[simp] theorem emit_pending (slots : Slots) : (emit slots s).pending = s.pending := rfl

/-! ## countSearchBit: A search bit is counted (R134). -/

@[simp] theorem countSearchBit_cfg : (countSearchBit s).cfg = s.cfg := rfl
@[simp] theorem countSearchBit_reg : (countSearchBit s).reg = s.reg := rfl
@[simp] theorem countSearchBit_cur : (countSearchBit s).cur = s.cur := rfl
@[simp] theorem countSearchBit_ready : (countSearchBit s).ready = s.ready := rfl
@[simp] theorem countSearchBit_groupReady : (countSearchBit s).groupReady = s.groupReady := rfl
@[simp] theorem countSearchBit_bitcount : (countSearchBit s).bitcount = s.bitcount := rfl
@[simp] theorem countSearchBit_nbUntil : (countSearchBit s).nbUntil = s.nbUntil := rfl
@[simp] theorem countSearchBit_expected : (countSearchBit s).expected = s.expected := rfl
@[simp] theorem countSearchBit_inSync : (countSearchBit s).inSync = s.inSync := rfl
@[simp] theorem countSearchBit_offsetsDisabled : (countSearchBit s).offsetsDisabled = s.offsetsDisabled := rfl
@[simp] theorem countSearchBit_bitsSinceLost : (countSearchBit s).bitsSinceLost = min (s.bitsSinceLost + 1) (2 ^ s.cfg.sinceW - 1) := rfl
@[simp] theorem countSearchBit_pulses : (countSearchBit s).pulses = s.pulses := rfl
@[simp] theorem countSearchBit_errwin : (countSearchBit s).errwin = s.errwin := rfl
@[simp] theorem countSearchBit_blerwin : (countSearchBit s).blerwin = s.blerwin := rfl
@[simp] theorem countSearchBit_out : (countSearchBit s).out = s.out := rfl
@[simp] theorem countSearchBit_pending : (countSearchBit s).pending = s.pending := rfl

/-! ## acquire: ACQUIRE (R138). -/

@[simp] theorem acquire_cfg (o : Offset) : (acquire o s).cfg = s.cfg := rfl
@[simp] theorem acquire_reg (o : Offset) : (acquire o s).reg = s.reg := rfl
@[simp] theorem acquire_cur (o : Offset) : (acquire o s).cur = Slots.fresh := rfl
@[simp] theorem acquire_ready (o : Offset) : (acquire o s).ready = s.ready := rfl
@[simp] theorem acquire_groupReady (o : Offset) : (acquire o s).groupReady = s.groupReady := rfl
@[simp] theorem acquire_bitcount (o : Offset) : (acquire o s).bitcount = s.bitcount := rfl
@[simp] theorem acquire_nbUntil (o : Offset) : (acquire o s).nbUntil = s.nbUntil := rfl
@[simp] theorem acquire_expected (o : Offset) : (acquire o s).expected = o := rfl
@[simp] theorem acquire_inSync (o : Offset) : (acquire o s).inSync = true := rfl
@[simp] theorem acquire_offsetsDisabled (o : Offset) : (acquire o s).offsetsDisabled = s.offsetsDisabled := rfl
@[simp] theorem acquire_bitsSinceLost (o : Offset) : (acquire o s).bitsSinceLost = 0 := rfl
@[simp] theorem acquire_pulses (o : Offset) : (acquire o s).pulses = s.pulses := rfl
@[simp] theorem acquire_errwin (o : Offset) : (acquire o s).errwin = s.errwin := rfl
@[simp] theorem acquire_blerwin (o : Offset) : (acquire o s).blerwin = s.blerwin := rfl
@[simp] theorem acquire_out (o : Offset) : (acquire o s).out = s.out := rfl
@[simp] theorem acquire_pending (o : Offset) : (acquire o s).pending = s.pending := rfl

/-! ## pushErrorFlag: The had-errors bit enters the window (R141). -/

@[simp] theorem pushErrorFlag_cfg (had : Bool) : (pushErrorFlag had s).cfg = s.cfg := rfl
@[simp] theorem pushErrorFlag_reg (had : Bool) : (pushErrorFlag had s).reg = s.reg := rfl
@[simp] theorem pushErrorFlag_cur (had : Bool) : (pushErrorFlag had s).cur = s.cur := rfl
@[simp] theorem pushErrorFlag_ready (had : Bool) : (pushErrorFlag had s).ready = s.ready := rfl
@[simp] theorem pushErrorFlag_groupReady (had : Bool) : (pushErrorFlag had s).groupReady = s.groupReady := rfl
@[simp] theorem pushErrorFlag_bitcount (had : Bool) : (pushErrorFlag had s).bitcount = s.bitcount := rfl
@[simp] theorem pushErrorFlag_nbUntil (had : Bool) : (pushErrorFlag had s).nbUntil = s.nbUntil := rfl
@[simp] theorem pushErrorFlag_expected (had : Bool) : (pushErrorFlag had s).expected = s.expected := rfl
@[simp] theorem pushErrorFlag_inSync (had : Bool) : (pushErrorFlag had s).inSync = s.inSync := rfl
@[simp] theorem pushErrorFlag_offsetsDisabled (had : Bool) : (pushErrorFlag had s).offsetsDisabled = s.offsetsDisabled := rfl
@[simp] theorem pushErrorFlag_bitsSinceLost (had : Bool) : (pushErrorFlag had s).bitsSinceLost = s.bitsSinceLost := rfl
@[simp] theorem pushErrorFlag_pulses (had : Bool) : (pushErrorFlag had s).pulses = s.pulses := rfl
@[simp] theorem pushErrorFlag_errwin (had : Bool) : (pushErrorFlag had s).errwin = pushWindow s.errwin had := rfl
@[simp] theorem pushErrorFlag_blerwin (had : Bool) : (pushErrorFlag had s).blerwin = s.blerwin := rfl
@[simp] theorem pushErrorFlag_out (had : Bool) : (pushErrorFlag had s).out = s.out := rfl
@[simp] theorem pushErrorFlag_pending (had : Bool) : (pushErrorFlag had s).pending = s.pending := rfl

/-! ## dropSync: Sync loss (R144). -/

@[simp] theorem dropSync_cfg : (dropSync s).cfg = s.cfg := rfl
@[simp] theorem dropSync_reg : (dropSync s).reg = s.reg := rfl
@[simp] theorem dropSync_cur : (dropSync s).cur = s.cur := rfl
@[simp] theorem dropSync_ready : (dropSync s).ready = s.ready := rfl
@[simp] theorem dropSync_groupReady : (dropSync s).groupReady = s.groupReady := rfl
@[simp] theorem dropSync_bitcount : (dropSync s).bitcount = s.bitcount := rfl
@[simp] theorem dropSync_nbUntil : (dropSync s).nbUntil = s.nbUntil := rfl
@[simp] theorem dropSync_expected : (dropSync s).expected = s.expected := rfl
@[simp] theorem dropSync_inSync : (dropSync s).inSync = false := rfl
@[simp] theorem dropSync_offsetsDisabled : (dropSync s).offsetsDisabled = s.offsetsDisabled := rfl
@[simp] theorem dropSync_bitsSinceLost : (dropSync s).bitsSinceLost = s.bitsSinceLost := rfl
@[simp] theorem dropSync_pulses : (dropSync s).pulses = s.pulses := rfl
@[simp] theorem dropSync_errwin : (dropSync s).errwin = List.replicate errwinLen false := rfl
@[simp] theorem dropSync_blerwin : (dropSync s).blerwin = s.blerwin := rfl
@[simp] theorem dropSync_out : (dropSync s).out = s.out := rfl
@[simp] theorem dropSync_pending : (dropSync s).pending = s.pending := rfl

/-! ## storeBlock: A block is stored (R146). -/

@[simp] theorem storeBlock_cfg (blk : Slot) : (storeBlock blk s).cfg = s.cfg := rfl
@[simp] theorem storeBlock_reg (blk : Slot) : (storeBlock blk s).reg = s.reg := rfl
@[simp] theorem storeBlock_cur (blk : Slot) : (storeBlock blk s).cur = setSlot s.cur (blockNo s.expected) blk := rfl
@[simp] theorem storeBlock_ready (blk : Slot) : (storeBlock blk s).ready = s.ready := rfl
@[simp] theorem storeBlock_groupReady (blk : Slot) : (storeBlock blk s).groupReady = s.groupReady := rfl
@[simp] theorem storeBlock_bitcount (blk : Slot) : (storeBlock blk s).bitcount = s.bitcount := rfl
@[simp] theorem storeBlock_nbUntil (blk : Slot) : (storeBlock blk s).nbUntil = s.nbUntil := rfl
@[simp] theorem storeBlock_expected (blk : Slot) : (storeBlock blk s).expected = s.expected := rfl
@[simp] theorem storeBlock_inSync (blk : Slot) : (storeBlock blk s).inSync = s.inSync := rfl
@[simp] theorem storeBlock_offsetsDisabled (blk : Slot) : (storeBlock blk s).offsetsDisabled = s.offsetsDisabled := rfl
@[simp] theorem storeBlock_bitsSinceLost (blk : Slot) : (storeBlock blk s).bitsSinceLost = s.bitsSinceLost := rfl
@[simp] theorem storeBlock_pulses (blk : Slot) : (storeBlock blk s).pulses = s.pulses := rfl
@[simp] theorem storeBlock_errwin (blk : Slot) : (storeBlock blk s).errwin = s.errwin := rfl
@[simp] theorem storeBlock_blerwin (blk : Slot) : (storeBlock blk s).blerwin = s.blerwin := rfl
@[simp] theorem storeBlock_out (blk : Slot) : (storeBlock blk s).out = s.out := rfl
@[simp] theorem storeBlock_pending (blk : Slot) : (storeBlock blk s).pending = s.pending := rfl

/-! ## markUncorrectable: An uncorrectable block (R147). -/

@[simp] theorem markUncorrectable_cfg : (markUncorrectable s).cfg = s.cfg := rfl
@[simp] theorem markUncorrectable_reg : (markUncorrectable s).reg = s.reg := rfl
@[simp] theorem markUncorrectable_cur : (markUncorrectable s).cur = setSlot s.cur (blockNo s.expected) { getSlot s.cur (blockNo s.expected) with hadErrors := true } := rfl
@[simp] theorem markUncorrectable_ready : (markUncorrectable s).ready = s.ready := rfl
@[simp] theorem markUncorrectable_groupReady : (markUncorrectable s).groupReady = s.groupReady := rfl
@[simp] theorem markUncorrectable_bitcount : (markUncorrectable s).bitcount = s.bitcount := rfl
@[simp] theorem markUncorrectable_nbUntil : (markUncorrectable s).nbUntil = s.nbUntil := rfl
@[simp] theorem markUncorrectable_expected : (markUncorrectable s).expected = s.expected := rfl
@[simp] theorem markUncorrectable_inSync : (markUncorrectable s).inSync = s.inSync := rfl
@[simp] theorem markUncorrectable_offsetsDisabled : (markUncorrectable s).offsetsDisabled = s.offsetsDisabled := rfl
@[simp] theorem markUncorrectable_bitsSinceLost : (markUncorrectable s).bitsSinceLost = s.bitsSinceLost := rfl
@[simp] theorem markUncorrectable_pulses : (markUncorrectable s).pulses = s.pulses := rfl
@[simp] theorem markUncorrectable_errwin : (markUncorrectable s).errwin = s.errwin := rfl
@[simp] theorem markUncorrectable_blerwin : (markUncorrectable s).blerwin = s.blerwin := rfl
@[simp] theorem markUncorrectable_out : (markUncorrectable s).out = s.out := rfl
@[simp] theorem markUncorrectable_pending : (markUncorrectable s).pending = s.pending := rfl

/-! ## advance: The cycle advances (R148). -/

@[simp] theorem advance_cfg : (advance s).cfg = s.cfg := rfl
@[simp] theorem advance_reg : (advance s).reg = s.reg := rfl
@[simp] theorem advance_cur : (advance s).cur = s.cur := rfl
@[simp] theorem advance_ready : (advance s).ready = s.ready := rfl
@[simp] theorem advance_groupReady : (advance s).groupReady = s.groupReady := rfl
@[simp] theorem advance_bitcount : (advance s).bitcount = s.bitcount := rfl
@[simp] theorem advance_nbUntil : (advance s).nbUntil = s.nbUntil := rfl
@[simp] theorem advance_expected : (advance s).expected = nextOffset s.expected := rfl
@[simp] theorem advance_inSync : (advance s).inSync = s.inSync := rfl
@[simp] theorem advance_offsetsDisabled : (advance s).offsetsDisabled = s.offsetsDisabled := rfl
@[simp] theorem advance_bitsSinceLost : (advance s).bitsSinceLost = s.bitsSinceLost := rfl
@[simp] theorem advance_pulses : (advance s).pulses = s.pulses := rfl
@[simp] theorem advance_errwin : (advance s).errwin = s.errwin := rfl
@[simp] theorem advance_blerwin : (advance s).blerwin = s.blerwin := rfl
@[simp] theorem advance_out : (advance s).out = s.out := rfl
@[simp] theorem advance_pending : (advance s).pending = s.pending := rfl

/-! ## takeBit: A received bit (R130 steps 1 and 2). -/

@[simp] theorem takeBit_cfg (b : Bool) : (takeBit b s).cfg = s.cfg := rfl
@[simp] theorem takeBit_reg (b : Bool) : (takeBit b s).reg = shiftIn s.reg b := rfl
@[simp] theorem takeBit_cur (b : Bool) : (takeBit b s).cur = s.cur := rfl
@[simp] theorem takeBit_ready (b : Bool) : (takeBit b s).ready = s.ready := rfl
@[simp] theorem takeBit_groupReady (b : Bool) : (takeBit b s).groupReady = s.groupReady := rfl
@[simp] theorem takeBit_bitcount (b : Bool) : (takeBit b s).bitcount = s.bitcount + 1 := rfl
@[simp] theorem takeBit_nbUntil (b : Bool) : (takeBit b s).nbUntil = s.nbUntil := rfl
@[simp] theorem takeBit_expected (b : Bool) : (takeBit b s).expected = s.expected := rfl
@[simp] theorem takeBit_inSync (b : Bool) : (takeBit b s).inSync = s.inSync := rfl
@[simp] theorem takeBit_offsetsDisabled (b : Bool) : (takeBit b s).offsetsDisabled = s.offsetsDisabled := rfl
@[simp] theorem takeBit_bitsSinceLost (b : Bool) : (takeBit b s).bitsSinceLost = s.bitsSinceLost := rfl
@[simp] theorem takeBit_pulses (b : Bool) : (takeBit b s).pulses = s.pulses := rfl
@[simp] theorem takeBit_errwin (b : Bool) : (takeBit b s).errwin = s.errwin := rfl
@[simp] theorem takeBit_blerwin (b : Bool) : (takeBit b s).blerwin = s.blerwin := rfl
@[simp] theorem takeBit_out (b : Bool) : (takeBit b s).out = s.out := rfl
@[simp] theorem takeBit_pending (b : Bool) : (takeBit b s).pending = s.pending := rfl

/-! ## reloadCount: The block counter is reloaded (R131). -/

@[simp] theorem reloadCount_cfg : (reloadCount s).cfg = s.cfg := rfl
@[simp] theorem reloadCount_reg : (reloadCount s).reg = s.reg := rfl
@[simp] theorem reloadCount_cur : (reloadCount s).cur = s.cur := rfl
@[simp] theorem reloadCount_ready : (reloadCount s).ready = s.ready := rfl
@[simp] theorem reloadCount_groupReady : (reloadCount s).groupReady = s.groupReady := rfl
@[simp] theorem reloadCount_bitcount : (reloadCount s).bitcount = s.bitcount := rfl
@[simp] theorem reloadCount_nbUntil : (reloadCount s).nbUntil = if s.inSync then blockLen else 1 := rfl
@[simp] theorem reloadCount_expected : (reloadCount s).expected = s.expected := rfl
@[simp] theorem reloadCount_inSync : (reloadCount s).inSync = s.inSync := rfl
@[simp] theorem reloadCount_offsetsDisabled : (reloadCount s).offsetsDisabled = s.offsetsDisabled := rfl
@[simp] theorem reloadCount_bitsSinceLost : (reloadCount s).bitsSinceLost = s.bitsSinceLost := rfl
@[simp] theorem reloadCount_pulses : (reloadCount s).pulses = s.pulses := rfl
@[simp] theorem reloadCount_errwin : (reloadCount s).errwin = s.errwin := rfl
@[simp] theorem reloadCount_blerwin : (reloadCount s).blerwin = s.blerwin := rfl
@[simp] theorem reloadCount_out : (reloadCount s).out = s.out := rfl
@[simp] theorem reloadCount_pending : (reloadCount s).pending = s.pending := rfl

/-! ## resetUnit: RESET (R210). -/

@[simp] theorem resetUnit_cfg : (resetUnit s).cfg = s.cfg := rfl
@[simp] theorem resetUnit_reg : (resetUnit s).reg = 0 := rfl
@[simp] theorem resetUnit_cur : (resetUnit s).cur = Slots.fresh := rfl
@[simp] theorem resetUnit_ready : (resetUnit s).ready = Group.fresh := rfl
@[simp] theorem resetUnit_groupReady : (resetUnit s).groupReady = false := rfl
@[simp] theorem resetUnit_bitcount : (resetUnit s).bitcount = 0 := rfl
@[simp] theorem resetUnit_nbUntil : (resetUnit s).nbUntil = 1 := rfl
@[simp] theorem resetUnit_expected : (resetUnit s).expected = .a := rfl
@[simp] theorem resetUnit_inSync : (resetUnit s).inSync = false := rfl
@[simp] theorem resetUnit_offsetsDisabled : (resetUnit s).offsetsDisabled = false := rfl
@[simp] theorem resetUnit_bitsSinceLost : (resetUnit s).bitsSinceLost = 0 := rfl
@[simp] theorem resetUnit_pulses : (resetUnit s).pulses = PulseHistory.empty := rfl
@[simp] theorem resetUnit_errwin : (resetUnit s).errwin = List.replicate errwinLen false := rfl
@[simp] theorem resetUnit_blerwin : (resetUnit s).blerwin = List.replicate s.cfg.blerN 0 := rfl
@[simp] theorem resetUnit_out : (resetUnit s).out = none := rfl
@[simp] theorem resetUnit_pending : (resetUnit s).pending = s.pending := rfl

/-! ## The state after reset -/

@[simp] theorem initial_cfg (cfg : Config) : (State.initial cfg).cfg = cfg := rfl
@[simp] theorem initial_reg (cfg : Config) : (State.initial cfg).reg = 0 := rfl
@[simp] theorem initial_cur (cfg : Config) : (State.initial cfg).cur = Slots.fresh := rfl
@[simp] theorem initial_ready (cfg : Config) : (State.initial cfg).ready = Group.fresh := rfl
@[simp] theorem initial_groupReady (cfg : Config) : (State.initial cfg).groupReady = false := rfl
@[simp] theorem initial_bitcount (cfg : Config) : (State.initial cfg).bitcount = 0 := rfl
@[simp] theorem initial_nbUntil (cfg : Config) : (State.initial cfg).nbUntil = 1 := rfl
@[simp] theorem initial_expected (cfg : Config) : (State.initial cfg).expected = .a := rfl
@[simp] theorem initial_inSync (cfg : Config) : (State.initial cfg).inSync = false := rfl
@[simp] theorem initial_offsetsDisabled (cfg : Config) : (State.initial cfg).offsetsDisabled = false := rfl
@[simp] theorem initial_bitsSinceLost (cfg : Config) : (State.initial cfg).bitsSinceLost = 0 := rfl
@[simp] theorem initial_pulses (cfg : Config) : (State.initial cfg).pulses = PulseHistory.empty := rfl
@[simp] theorem initial_errwin (cfg : Config) : (State.initial cfg).errwin = List.replicate errwinLen false := rfl
@[simp] theorem initial_blerwin (cfg : Config) : (State.initial cfg).blerwin = List.replicate cfg.blerN 0 := rfl
@[simp] theorem initial_out (cfg : Config) : (State.initial cfg).out = none := rfl
@[simp] theorem initial_pending (cfg : Config) : (State.initial cfg).pending = [] := rfl

/-! ## Reading and writing slots -/

@[simp] theorem getSlot_setSlot_same (slots : Slots) (k : BlockNo) (sl : Slot) :
    getSlot (setSlot slots k sl) k = sl := by cases k <;> rfl

theorem getSlot_setSlot_ne (slots : Slots) {j k : BlockNo} (sl : Slot) (h : j ≠ k) :
    getSlot (setSlot slots k sl) j = getSlot slots j := by cases j <;> cases k <;> first | rfl | exact absurd rfl h

@[simp] theorem getSlot_fresh (k : BlockNo) : getSlot Slots.fresh k = Slot.fresh := by cases k <;> rfl

/-! ## The decoder's part of the state under the updates that do not touch it -/

@[simp] theorem clearOut_decoder : (clearOut s).decoder = s.decoder := rfl
@[simp] theorem present_decoder (w : CommandWord) : (present w s).decoder = s.decoder := rfl
@[simp] theorem emit_decoder (slots : Slots) : (emit slots s).decoder = s.decoder := rfl

end Sys2Proof.Machine
end

