-- ==== Sys2Proof/Laws/Ops.lean ====
section
/-! SUPPORT. One spec lemma per shared operation: everything it can do, and what it leaves alone. -/

namespace Sys2Proof.Machine

/-! ## Windows -/

@[simp] theorem pushWindow_length {α : Type} (w : List α) (x : α) : (pushWindow w x).length = w.length := by
  simp [pushWindow]

theorem mem_pushWindow {α : Type} {w : List α} {x y : α} (h : y ∈ pushWindow w x) : y ∈ w ∨ y = x := by
  have := List.mem_of_mem_drop h
  simpa using this

theorem errSum_append (w : List Bool) (b : Bool) : errSum (w ++ [b]) = errSum w + b.toNat := by
  unfold errSum
  cases b <;> simp

theorem errSum_pushWindow_le (w : List Bool) (b : Bool) : errSum (pushWindow w b) ≤ errSum w + b.toNat := by
  rw [← errSum_append]
  unfold errSum pushWindow
  exact (List.drop_sublist 1 (w ++ [b])).count_le true

@[simp] theorem errSum_replicate_false (n : Nat) : errSum (List.replicate n false) = 0 := by
  simp [errSum, List.count_replicate]

theorem errSum_pushWindow_false {w : List Bool} (h : errSum w = 0) : errSum (pushWindow w false) = 0 := by
  have := errSum_pushWindow_le w false
  simp at this
  omega

theorem nErrOf_le (slots : Slots) : nErrOf slots ≤ 4 := by
  unfold nErrOf
  have h : ∀ b : Bool, b.toNat ≤ 1 := by decide
  have := h (slotErrored slots.slot1)
  have := h (slotErrored slots.slot2)
  have := h (slotErrored slots.slot3)
  have := h (slotErrored slots.slot4)
  omega

/-! ## Search -/

/-- Two pulses match when their distance is a multiple of 26, at most 6 blocks, and consistent with their block numbers
(R137). -/
theorem pulsesMatch_iff (p latest : Pulse) : pulsesMatch p latest = true ↔
    (latest.bitcount - p.bitcount) % 26 = 0 ∧ (latest.bitcount - p.bitcount) / 26 ≤ 6 ∧
      ((blockNum p.offset : Int) + ((latest.bitcount - p.bitcount) / 26 : Nat) - blockNum latest.offset) % 4 = 0 := by
  simp only [pulsesMatch, Bool.and_eq_true, decide_eq_true_eq, beq_iff_eq, and_assoc, blockLen, maxPulseBlocks]

theorem entryMatches_iff (entry : Option Pulse) (latest : Pulse) :
    entryMatches entry latest = true ↔ ∃ p, entry = some p ∧ pulsesMatch p latest = true := by
  cases entry <;> simp [entryMatches]

/-- A sequence is found when one of the three earlier pulses matches the latest (R137). -/
theorem sequenceFound_iff (h : PulseHistory) : sequenceFound h = true ↔
    ∃ latest, h.pulse3 = some latest ∧
      ∃ p, (h.pulse0 = some p ∨ h.pulse1 = some p ∨ h.pulse2 = some p) ∧ pulsesMatch p latest = true := by
  unfold sequenceFound
  cases h.pulse3 with
  | none => simp
  | some latest =>
    simp only [Bool.or_eq_true, entryMatches_iff, Option.some.injEq, exists_eq_left', or_assoc]
    constructor
    · rintro (⟨p, hp, hm⟩ | ⟨p, hp, hm⟩ | ⟨p, hp, hm⟩)
      · exact ⟨p, .inl hp, hm⟩
      · exact ⟨p, .inr (.inl hp), hm⟩
      · exact ⟨p, .inr (.inr hp), hm⟩
    · rintro ⟨p, hp | hp | hp, hm⟩
      · exact .inl ⟨p, hp, hm⟩
      · exact .inr (.inl ⟨p, hp, hm⟩)
      · exact .inr (.inr ⟨p, hp, hm⟩)

/-- Everything a search step can do: count the bit; record a pulse when an offset is observed; acquire sync when the pulse
completes a sequence (R133). -/
theorem searchStep_cases (obs : Option Offset) (s : State) :
    (obs = none ∧ searchStep obs s = countSearchBit s) ∨
    (∃ o, obs = some o ∧ sequenceFound (pushPulse s.pulses o s.bitcount) = false ∧
      searchStep obs s = { countSearchBit s with pulses := pushPulse s.pulses o s.bitcount }) ∨
    (∃ o, obs = some o ∧ sequenceFound (pushPulse s.pulses o s.bitcount) = true ∧
      searchStep obs s = acquire o { countSearchBit s with pulses := pushPulse s.pulses o s.bitcount }) := by
  cases obs with
  | none => exact .inl ⟨rfl, rfl⟩
  | some o =>
    refine .inr ?_
    by_cases h : sequenceFound (pushPulse s.pulses o s.bitcount) = true
    · exact .inr ⟨o, rfl, h, by simp [searchStep, h]⟩
    · exact .inl ⟨o, rfl, by simpa using h, by simp [searchStep, h]⟩

/-- A search step changes nothing else (R133). -/
theorem searchStep_frame (obs : Option Offset) (s : State) :
    (searchStep obs s).cfg = s.cfg ∧ (searchStep obs s).reg = s.reg ∧ (searchStep obs s).ready = s.ready ∧
    (searchStep obs s).groupReady = s.groupReady ∧ (searchStep obs s).bitcount = s.bitcount ∧
    (searchStep obs s).nbUntil = s.nbUntil ∧ (searchStep obs s).offsetsDisabled = s.offsetsDisabled ∧
    (searchStep obs s).errwin = s.errwin ∧ (searchStep obs s).blerwin = s.blerwin ∧
    (searchStep obs s).out = s.out ∧ (searchStep obs s).pending = s.pending := by
  obtain ⟨-, h⟩ | ⟨o, -, -, h⟩ | ⟨o, -, -, h⟩ := searchStep_cases obs s <;> rw [h] <;> simp

/-! ## Reception -/

/-- The expected offset of a block after the substitution of R140. -/
def effectiveOffset (obs : Option Offset) (expected : Offset) : Offset :=
  if expected = .c ∧ obs = some .cPrime then .cPrime else expected

theorem substitute_eq (obs : Option Offset) (s : State) :
    substitute obs s = { s with expected := effectiveOffset obs s.expected } := by
  unfold substitute effectiveOffset
  split <;> rfl

theorem blockNo_effectiveOffset (obs : Option Offset) (expected : Offset) :
    blockNo (effectiveOffset obs expected) = blockNo expected := by
  unfold effectiveOffset
  split
  · rename_i h
    rw [h.1]
    rfl
  · rfl

/-- The state after RECEIVE step 6: the block's flag in the window, sync perhaps dropped (R141, R144). -/
def afterLoss (uncorrectable : Bool) (had : Bool) (s : State) : State :=
  let w := pushWindow s.errwin had
  if lossFound s.cfg uncorrectable w then
    { s with inSync := false, errwin := List.replicate errwinLen false }
  else { s with errwin := w }

theorem afterLoss_kept {unc had : Bool} {s : State} (h : lossFound s.cfg unc (pushWindow s.errwin had) = false) :
    afterLoss unc had s = pushErrorFlag had s := by
  unfold afterLoss
  simp [h, pushErrorFlag]

/-- No more than 45 errors, no loss (R144). -/
theorem lossFound_of_le {cfg : Config} {unc : Bool} {w : List Bool} (h : errSum w ≤ 45) : lossFound cfg unc w = false := by
  have : ¬ lossThreshold < errSum w := by
    show ¬ 45 < errSum w
    omega
  simp [lossFound, this]

theorem lossFound_iff (cfg : Config) (unc : Bool) (w : List Bool) :
    lossFound cfg unc w = true ↔ (unc = true ∨ cfg.lossCheck = .everyBlock) ∧ 45 < errSum w := by
  unfold lossFound lossTested
  simp

/-- The block stored, or `none`, and the slots after RECEIVE step 7 (R142, R143, R146, R147). -/
def filledSlots (blk : Option Slot) (k : BlockNo) (cur : Slots) : Slots :=
  match blk with
  | some blk => setSlot cur k blk
  | none => setSlot cur k { getSlot cur k with hadErrors := true }

/-- RECEIVE in one line: the window and the loss test, then the slot, the advance, and the emission when the cycle returns
to A (R139). -/
theorem receive_eq (raw : Raw) (obs : Option Offset) (s : State) :
    receive raw obs s =
      let o := effectiveOffset obs s.expected
      let had := hadErrorsFlag obs o
      let blk := framedBlock s.cfg raw o had
      let t := afterLoss blk.isNone had s
      let slots := filledSlots blk (blockNo o) s.cur
      if nextOffset o = .a then { emit slots t with expected := .a, cur := Slots.fresh }
      else { t with expected := nextOffset o, cur := slots } := by
  simp only [receive, substitute_eq]
  generalize effectiveOffset obs s.expected = o
  generalize hadErrorsFlag obs o = had
  generalize hb : framedBlock s.cfg raw o had = blk
  simp only [pushErrorFlag, hb]
  by_cases hl : lossFound s.cfg blk.isNone (pushWindow s.errwin had) = true <;>
    by_cases hn : nextOffset o = .a <;>
    cases blk <;>
    simp_all [lossStep, afterLoss, fillSlot, filledSlots, storeBlock, markUncorrectable, dropSync, advance, finishGroup, emit]

/-- A clean block is framed as received (R142). -/
theorem framedBlock_clean (cfg : Config) (raw : Raw) (o : Offset) :
    framedBlock cfg raw o false =
      some { raw := raw, data := dataOf raw, offset := some o, isReceived := true, hadErrors := false } := rfl

/-- A block in error is corrected or not framed (R143). -/
theorem framedBlock_errored (cfg : Config) (raw : Raw) (o : Offset) :
    framedBlock cfg raw o true =
      if (correct cfg.matrix raw o).1 then
        some { raw := (correct cfg.matrix raw o).2, data := dataOf (correct cfg.matrix raw o).2, offset := some o,
               isReceived := true, hadErrors := true }
      else none := by
  unfold framedBlock
  rcases h : correct cfg.matrix raw o with ⟨_ | _, _⟩ <;> simp

/-- Every block that is framed carries its data and the expected offset and is received (R142, R143). -/
theorem framedBlock_wf {cfg : Config} {raw : Raw} {o : Offset} {had : Bool} {blk : Slot}
    (h : framedBlock cfg raw o had = some blk) :
    blk.data = dataOf blk.raw ∧ blk.offset = some o ∧ blk.isReceived = true ∧ blk.hadErrors = had := by
  cases had with
  | false =>
    rw [framedBlock_clean] at h
    cases h
    exact ⟨rfl, rfl, rfl, rfl⟩
  | true =>
    rw [framedBlock_errored] at h
    split at h
    · cases h
      exact ⟨rfl, rfl, rfl, rfl⟩
    · cases h

theorem hadErrorsFlag_eq_false (obs : Option Offset) (o : Offset) : hadErrorsFlag obs o = false ↔ obs = some o := by
  simp [hadErrorsFlag]

theorem effectiveOffset_self (o : Offset) : effectiveOffset (some o) o = o := by cases o <;> rfl

theorem effectiveOffset_of_not {obs : Option Offset} {o : Offset} (h : ¬ (o = .c ∧ obs = some .cPrime)) :
    effectiveOffset obs o = o := if_neg h

theorem nextOffset_eq_a {o : Offset} : nextOffset o = .a ↔ o = .d := by cases o <;> decide

/-- A block is left unframed exactly when it is in error and the table holds no correction (R143, R147). -/
theorem framedBlock_isNone (cfg : Config) (raw : Raw) (o : Offset) (had : Bool) :
    (framedBlock cfg raw o had).isNone = true ↔ had = true ∧ errLookup cfg.matrix (syndrome cfg.matrix raw) o = none := by
  cases had with
  | false => simp [framedBlock_clean]
  | true =>
    rw [framedBlock_errored]
    cases h : errLookup cfg.matrix (syndrome cfg.matrix raw) o with
    | none => simp [correct_of_miss h]
    | some e => simp [correct_of_hit h]

/-- The last steps of RECEIVE: the slots are stored, or emitted when the offset was D (R148, R149). -/
def closeBlock (slots : Slots) (o : Offset) (s : State) : State :=
  if o = .d then { emit slots s with expected := .a, cur := Slots.fresh }
  else { s with expected := nextOffset o, cur := slots }

theorem receive_eq_closeBlock {raw : Raw} {obs : Option Offset} {s : State} {o : Offset} {had : Bool} {blk : Option Slot}
    (ho : effectiveOffset obs s.expected = o) (hh : hadErrorsFlag obs o = had) (hb : framedBlock s.cfg raw o had = blk) :
    receive raw obs s = closeBlock (filledSlots blk (blockNo o) s.cur) o (afterLoss blk.isNone had s) := by
  subst ho hh hb
  rw [receive_eq]
  simp only [closeBlock, nextOffset_eq_a]

/-- A block at its expected offset is stored as received, whether or not it drops sync (R142, R144, R146). -/
theorem receive_clean_afterLoss {raw : Raw} {s : State} {o : Offset} (ho : effectiveOffset (some o) s.expected = o) :
    receive raw (some o) s = closeBlock (setSlot s.cur (blockNo o)
      { raw := raw, data := dataOf raw, offset := some o, isReceived := true, hadErrors := false }) o
      (afterLoss false false s) := by
  have hh : hadErrorsFlag (some o) o = false := by simp [hadErrorsFlag]
  rw [receive_eq_closeBlock ho hh (framedBlock_clean _ _ _)]
  rfl

/-- A block at its expected offset that does not drop sync (R142, R146). -/
theorem receive_clean {raw : Raw} {s : State} {o : Offset} (ho : effectiveOffset (some o) s.expected = o)
    (hl : lossFound s.cfg false (pushWindow s.errwin false) = false) :
    receive raw (some o) s = closeBlock (setSlot s.cur (blockNo o)
      { raw := raw, data := dataOf raw, offset := some o, isReceived := true, hadErrors := false }) o (pushErrorFlag false s) := by
  rw [receive_clean_afterLoss ho, afterLoss_kept hl]

/-- A block in error that the table repairs is stored corrected, whether or not it drops sync (R143, R144, R146). -/
theorem receive_corrected_afterLoss {raw e : Raw} {obs : Option Offset} {s : State} {o : Offset}
    (ho : effectiveOffset obs s.expected = o) (hne : obs ≠ some o)
    (he : errLookup s.cfg.matrix (syndrome s.cfg.matrix raw) o = some e) :
    receive raw obs s = closeBlock (setSlot s.cur (blockNo o)
      { raw := raw ^^^ e, data := dataOf (raw ^^^ e), offset := some o, isReceived := true, hadErrors := true }) o
      (afterLoss false true s) := by
  have hh : hadErrorsFlag obs o = true := by simpa [hadErrorsFlag] using hne
  have hb := framedBlock_errored s.cfg raw o
  rw [correct_of_hit he] at hb
  rw [receive_eq_closeBlock ho hh (by simpa using hb)]
  rfl

/-- A block in error that the table repairs, and that does not drop sync (R143, R146). -/
theorem receive_corrected {raw e : Raw} {obs : Option Offset} {s : State} {o : Offset}
    (ho : effectiveOffset obs s.expected = o) (hne : obs ≠ some o)
    (he : errLookup s.cfg.matrix (syndrome s.cfg.matrix raw) o = some e)
    (hl : lossFound s.cfg false (pushWindow s.errwin true) = false) :
    receive raw obs s = closeBlock (setSlot s.cur (blockNo o)
      { raw := raw ^^^ e, data := dataOf (raw ^^^ e), offset := some o, isReceived := true, hadErrors := true }) o
      (pushErrorFlag true s) := by
  rw [receive_corrected_afterLoss ho hne he, afterLoss_kept hl]

/-- An uncorrectable block marks its slot, and may drop sync (R144, R147). -/
theorem receive_uncorrectable {raw : Raw} {obs : Option Offset} {s : State} {o : Offset}
    (ho : effectiveOffset obs s.expected = o) (hne : obs ≠ some o)
    (he : errLookup s.cfg.matrix (syndrome s.cfg.matrix raw) o = none) :
    receive raw obs s = closeBlock (setSlot s.cur (blockNo o) { getSlot s.cur (blockNo o) with hadErrors := true }) o
      (afterLoss true true s) := by
  have hh : hadErrorsFlag obs o = true := by simpa [hadErrorsFlag] using hne
  have hb := framedBlock_errored s.cfg raw o
  rw [correct_of_miss he] at hb
  rw [receive_eq_closeBlock ho hh (by simpa using hb)]
  rfl

/-! ## The block step -/

/-- The state in which the reception part of a block step starts, `none` when it does not run (R132). -/
theorem blockStep_cases (s : State) :
    (s.inSync = true ∧ blockStep s = receive s.reg (observed s.cfg.matrix s.reg) s) ∨
    (s.inSync = false ∧ ∃ t, t = searchStep (observed s.cfg.matrix s.reg) s ∧
      ((t.inSync = false ∧ blockStep s = t) ∨
       (t.inSync = true ∧ blockStep s = receive s.reg (observed s.cfg.matrix s.reg) t))) := by
  unfold blockStep
  cases hs : s.inSync with
  | true => simp [hs]
  | false =>
    refine .inr ⟨rfl, _, rfl, ?_⟩
    cases ht : (searchStep (observed s.cfg.matrix s.reg) s).inSync <;> simp [ht]

/-- PUSH_BIT inside a block and at its end (R130). -/
theorem pushBit_eq (b : Bool) (s : State) :
    pushBit b s =
      if s.nbUntil ≤ 1 then reloadCount (blockStep (takeBit b s))
      else { takeBit b s with nbUntil := s.nbUntil - 1 } := by
  unfold pushBit
  by_cases h : s.nbUntil ≤ 1
  · have h0 : s.nbUntil - 1 = 0 := by omega
    simp [h, h0]
  · have h0 : s.nbUntil - 1 ≠ 0 := by omega
    simp [h, h0]

end Sys2Proof.Machine
end

