-- ==== Sys2Proof/Laws/Step.lean ====
section
/-! SUPPORT. What a command and a step can do, said once: every command completes; what PUSH_BIT does to each part of the
state; a whole block pushed bit by bit. -/

namespace Sys2Proof.Machine

/-! ## Steps -/

theorem step_of_pending {s : State} {w : CommandWord} {rest : List CommandWord} (h : s.pending = w :: rest) :
    step s = exec (decode w) { s with pending := rest } := by
  simp [step, fetch, h]

theorem step_of_idle {s : State} (h : s.pending = []) : step s = .next s := by
  simp [step, fetch, h, idle]

@[simp] theorem step_present (w : CommandWord) (s : State) : step (present w s) = exec (decode w) s := rfl

/-- The state after a command: every command completes (R15, R190). -/
def after (i : Instr) (s : State) : State :=
  match i with
  | .nop => clearOut s
  | .pushBit b => pushBit b (clearOut s)
  | .popGroup => { clearOut s with groupReady := false }
  | .pushGroup rx1 rx2 rx3 rx4 w1 w2 w3 w4 => emit (pushedSlots rx1 rx2 rx3 rx4 w1 w2 w3 w4) (clearOut s)
  | .disableOffsets => { clearOut s with offsetsDisabled := true }
  | .reset => resetUnit s
  | .reserved6 => clearOut s
  | .reserved7 => clearOut s

theorem exec_eq (i : Instr) (s : State) : exec i s = .next (after i s) := by cases i <;> rfl

theorem exec_eq_next_iff {i : Instr} {s t : State} : exec i s = .next t ↔ t = after i s := by
  rw [exec_eq]
  constructor
  · intro h
    cases h
    rfl
  · rintro rfl
    rfl

theorem execAll_cons (i : Instr) (l : List Instr) (s : State) : execAll (i :: l) s = execAll l (after i s) := by
  simp [execAll, exec_eq]

theorem execAll_append (l m : List Instr) (s : State) : execAll (l ++ m) s = execAll m (execAll l s) := by
  induction l generalizing s with
  | nil => rfl
  | cons i l ih => rw [List.cons_append, execAll_cons, execAll_cons, ih]

/-! ## Emission, the fields a slot decides -/

theorem groupRecord_slots (od : Bool) (slots : Slots) (n : Nat) : (groupRecord od slots n).slots = slots := rfl

theorem slotErrored_fresh : slotErrored Slot.fresh = true := rfl

/-! ## RECEIVE, field by field -/

section Receive

variable (raw : Raw) (obs : Option Offset) (s : State)

@[simp] theorem afterLoss_fields (unc had : Bool) :
    (afterLoss unc had s).cfg = s.cfg ∧ (afterLoss unc had s).reg = s.reg ∧ (afterLoss unc had s).cur = s.cur ∧
    (afterLoss unc had s).ready = s.ready ∧ (afterLoss unc had s).groupReady = s.groupReady ∧
    (afterLoss unc had s).bitcount = s.bitcount ∧ (afterLoss unc had s).nbUntil = s.nbUntil ∧
    (afterLoss unc had s).expected = s.expected ∧ (afterLoss unc had s).offsetsDisabled = s.offsetsDisabled ∧
    (afterLoss unc had s).bitsSinceLost = s.bitsSinceLost ∧ (afterLoss unc had s).pulses = s.pulses ∧
    (afterLoss unc had s).blerwin = s.blerwin ∧ (afterLoss unc had s).out = s.out ∧
    (afterLoss unc had s).pending = s.pending := by
  unfold afterLoss
  dsimp only
  split <;> simp

/-- The loss test, in sync: what becomes of `in_sync` and `errwin` (R144). -/
theorem afterLoss_cases (unc had : Bool) :
    (lossFound s.cfg unc (pushWindow s.errwin had) = true ∧ (afterLoss unc had s).inSync = false ∧
      (afterLoss unc had s).errwin = List.replicate errwinLen false) ∨
    (lossFound s.cfg unc (pushWindow s.errwin had) = false ∧ (afterLoss unc had s).inSync = s.inSync ∧
      (afterLoss unc had s).errwin = pushWindow s.errwin had) := by
  unfold afterLoss
  dsimp only
  split
  · rename_i h
    exact .inl ⟨h, rfl, rfl⟩
  · rename_i h
    exact .inr ⟨by simpa using h, rfl, rfl⟩

/-- What RECEIVE leaves alone (R139). -/
theorem receive_frame :
    (receive raw obs s).cfg = s.cfg ∧ (receive raw obs s).reg = s.reg ∧ (receive raw obs s).bitcount = s.bitcount ∧
    (receive raw obs s).nbUntil = s.nbUntil ∧ (receive raw obs s).offsetsDisabled = s.offsetsDisabled ∧
    (receive raw obs s).bitsSinceLost = s.bitsSinceLost ∧ (receive raw obs s).pulses = s.pulses ∧
    (receive raw obs s).pending = s.pending := by
  rw [receive_eq]
  dsimp only
  split <;> simp

/-- The expected offset after RECEIVE is the next of the one before (R148): the substitution does not change the next. -/
theorem receive_expected : (receive raw obs s).expected = nextOffset s.expected := by
  have h : nextOffset (effectiveOffset obs s.expected) = nextOffset s.expected := by
    unfold effectiveOffset
    split
    · rename_i h
      rw [h.1]
      rfl
    · rfl
  rw [receive_eq]
  dsimp only
  split
  · rename_i hn
    rw [← h, hn]
  · exact h

end Receive

/-! ## PUSH_BIT, the parts every case shares -/

theorem blockStep_frame (s : State) :
    (blockStep s).cfg = s.cfg ∧ (blockStep s).reg = s.reg ∧ (blockStep s).bitcount = s.bitcount ∧
    (blockStep s).offsetsDisabled = s.offsetsDisabled ∧ (blockStep s).pending = s.pending := by
  have hs := searchStep_frame (observed s.cfg.matrix s.reg) s
  obtain ⟨-, h⟩ | ⟨-, t, rfl, ⟨-, h⟩ | ⟨-, h⟩⟩ := blockStep_cases s <;> rw [h]
  · have hr := receive_frame s.reg (observed s.cfg.matrix s.reg) s
    simp [hr]
  · simp [hs]
  · have hr := receive_frame s.reg (observed s.cfg.matrix s.reg) (searchStep (observed s.cfg.matrix s.reg) s)
    simp [hr, hs]

/-- What PUSH_BIT leaves alone, and the register and the counter it always writes (R130). -/
theorem pushBit_frame (b : Bool) (s : State) :
    (pushBit b s).cfg = s.cfg ∧ (pushBit b s).reg = shiftIn s.reg b ∧ (pushBit b s).bitcount = s.bitcount + 1 ∧
    (pushBit b s).offsetsDisabled = s.offsetsDisabled ∧ (pushBit b s).pending = s.pending := by
  rw [pushBit_eq]
  split
  · have h := blockStep_frame (takeBit b s)
    simp [h]
  · simp

/-- PUSH_BIT inside a block (R130). -/
theorem after_pushBit_inside {b : Bool} {s : State} (h : 2 ≤ s.nbUntil) :
    after (.pushBit b) s = { takeBit b (clearOut s) with nbUntil := s.nbUntil - 1 } := by
  have : ¬ s.nbUntil ≤ 1 := by omega
  show pushBit b (clearOut s) = _
  rw [pushBit_eq]
  simp [this]

/-- PUSH_BIT at the end of a block (R130, R132). -/
theorem after_pushBit_boundary {b : Bool} {s : State} (h : s.nbUntil ≤ 1) :
    after (.pushBit b) s = reloadCount (blockStep (takeBit b (clearOut s))) := by
  show pushBit b (clearOut s) = _
  rw [pushBit_eq]
  simp [h]

/-- PUSH_BIT at the end of a block, in sync: the block is received (R132). -/
theorem after_pushBit_receive {b : Bool} {s : State} (h : s.nbUntil ≤ 1) (hs : s.inSync = true) :
    after (.pushBit b) s = reloadCount (receive (shiftIn s.reg b) (observed s.cfg.matrix (shiftIn s.reg b))
      (takeBit b (clearOut s))) := by
  rw [after_pushBit_boundary h]
  simp [blockStep, hs]

/-- PUSH_BIT out of sync: the search, and the reception of the block on which it acquires (R132). -/
theorem after_pushBit_search {b : Bool} {s : State} (h : s.nbUntil ≤ 1) (hs : s.inSync = false) :
    after (.pushBit b) s = reloadCount (
      let obs := observed s.cfg.matrix (shiftIn s.reg b)
      let t := searchStep obs (takeBit b (clearOut s))
      if t.inSync then receive (shiftIn s.reg b) obs t else t) := by
  rw [after_pushBit_boundary h]
  simp [blockStep, hs]

/-- The state after a search step that does not acquire: the bit counted, the pulse recorded if there was one. -/
def searched (obs : Option Offset) (s : State) : State :=
  match obs with
  | none => countSearchBit s
  | some o => { countSearchBit s with pulses := pushPulse s.pulses o s.bitcount }

/-- The state in which the block on which sync was acquired is received. -/
def acquired (o : Offset) (s : State) : State :=
  acquire o { countSearchBit s with pulses := pushPulse s.pulses o s.bitcount }

/-- Everything PUSH_BIT can do (R130, R132, R133): a bit inside a block; a search step that does not acquire; the reception of a
block, in sync or on acquisition. -/
theorem after_pushBit_cases (b : Bool) (s : State) :
    let obs := observed s.cfg.matrix (shiftIn s.reg b)
    let u := takeBit b (clearOut s)
    (2 ≤ s.nbUntil ∧ after (.pushBit b) s = { u with nbUntil := s.nbUntil - 1 }) ∨
    (s.nbUntil ≤ 1 ∧ s.inSync = false ∧
      (∀ o, obs = some o → sequenceFound (pushPulse s.pulses o (s.bitcount + 1)) = false) ∧
      after (.pushBit b) s = reloadCount (searched obs u)) ∨
    (s.nbUntil ≤ 1 ∧ s.inSync = true ∧ after (.pushBit b) s = reloadCount (receive (shiftIn s.reg b) obs u)) ∨
    (s.nbUntil ≤ 1 ∧ s.inSync = false ∧ ∃ o, obs = some o ∧
      sequenceFound (pushPulse s.pulses o (s.bitcount + 1)) = true ∧
      after (.pushBit b) s = reloadCount (receive (shiftIn s.reg b) obs (acquired o u))) := by
  dsimp only
  by_cases hn : 2 ≤ s.nbUntil
  · exact .inl ⟨hn, after_pushBit_inside hn⟩
  · have hn : s.nbUntil ≤ 1 := by omega
    refine .inr ?_
    cases hs : s.inSync with
    | true => exact .inr (.inl ⟨hn, rfl, after_pushBit_receive hn hs⟩)
    | false =>
      rw [after_pushBit_search hn hs]
      generalize observed s.cfg.matrix (shiftIn s.reg b) = obs
      obtain ⟨h0, h⟩ | ⟨o, h0, hf, h⟩ | ⟨o, h0, hf, h⟩ := searchStep_cases obs (takeBit b (clearOut s)) <;>
        subst h0 <;> dsimp only <;> rw [h]
      · exact .inl ⟨hn, rfl, by simp, by simp [hs, searched]⟩
      · refine .inl ⟨hn, rfl, ?_, by simp [hs, searched]⟩
        intro o' ho'
        cases ho'
        exact hf
      · exact .inr (.inr ⟨hn, rfl, o, rfl, hf, by simp [acquired]⟩)

/-! ## RECEIVE, what it emits -/

/-- Whether RECEIVE emits: exactly when the block expected was D (R149). -/
theorem receive_out (raw : Raw) (obs : Option Offset) (s : State) :
    (nextOffset s.expected ≠ .a → (receive raw obs s).out = s.out ∧ (receive raw obs s).ready = s.ready ∧
      (receive raw obs s).groupReady = s.groupReady ∧ (receive raw obs s).blerwin = s.blerwin) ∧
    (nextOffset s.expected = .a → ∃ slots, (receive raw obs s).ready = (emit slots s).ready ∧
      (receive raw obs s).out = some (receive raw obs s).ready ∧ (receive raw obs s).groupReady = true ∧
      (receive raw obs s).blerwin = pushWindow s.blerwin (nErrOf slots)) := by
  have hd : nextOffset s.expected = .a ↔ effectiveOffset obs s.expected = .d := by
    rw [nextOffset_eq_a]
    unfold effectiveOffset
    split
    · rename_i h
      simp [h.1]
    · rfl
  rw [receive_eq_closeBlock rfl rfl rfl]
  unfold closeBlock
  rw [ne_eq, hd]
  constructor
  · intro h
    rw [if_neg h]
    simp
  · intro h
    rw [if_pos h]
    refine ⟨filledSlots (framedBlock s.cfg raw (effectiveOffset obs s.expected)
      (hadErrorsFlag obs (effectiveOffset obs s.expected))) (blockNo (effectiveOffset obs s.expected)) s.cur, ?_⟩
    simp [emit]

/-- A failed comparison with the offset in effect is one with the offset expected, the permitted C′ apart (R140, R141). -/
theorem obs_ne_of_ne_effectiveOffset {obs : Option Offset} {expected : Offset}
    (h : obs ≠ some (effectiveOffset obs expected)) :
    obs ≠ some expected ∧ ¬ (expected = .c ∧ obs = some .cPrime) := by
  unfold effectiveOffset at h
  split at h
  · rename_i hc
    exact absurd hc.2 h
  · rename_i hc
    exact ⟨h, hc⟩

/-- What a framed block can be: clean, corrected, or uncorrectable (R142, R143). -/
theorem framedBlock_cases (cfg : Config) (raw : Raw) (obs : Option Offset) (o : Offset) :
    (obs = some o ∧ framedBlock cfg raw o (hadErrorsFlag obs o) =
      some { raw := raw, data := dataOf raw, offset := some o, isReceived := true, hadErrors := false }) ∨
    (obs ≠ some o ∧ ∃ e, errLookup cfg.matrix (syndrome cfg.matrix raw) o = some e ∧
      framedBlock cfg raw o (hadErrorsFlag obs o) = some
        { raw := raw ^^^ e, data := dataOf (raw ^^^ e), offset := some o, isReceived := true, hadErrors := true }) ∨
    (obs ≠ some o ∧ errLookup cfg.matrix (syndrome cfg.matrix raw) o = none ∧
      framedBlock cfg raw o (hadErrorsFlag obs o) = none) := by
  by_cases h : obs = some o
  · exact .inl ⟨h, by rw [(hadErrorsFlag_eq_false _ _).mpr h, framedBlock_clean]⟩
  · have hh : hadErrorsFlag obs o = true := by simpa [hadErrorsFlag] using h
    rw [hh, framedBlock_errored]
    cases hl : errLookup cfg.matrix (syndrome cfg.matrix raw) o with
    | none => exact .inr (.inr ⟨h, rfl, by rw [correct_of_miss hl]; rfl⟩)
    | some e => exact .inr (.inl ⟨h, e, rfl, by rw [correct_of_hit hl]; rfl⟩)

/-- What RECEIVE puts into slot k of a group: a clean block, a corrected one, or the mark (R142, R143, R147). -/
def FilledFrom (matrix : Vector Check 26) (raw : Raw) (obs : Option Offset) (o : Offset) (before after : Slot) : Prop :=
  (obs = some o ∧
    after = { raw := raw, data := dataOf raw, offset := some o, isReceived := true, hadErrors := false }) ∨
  (obs ≠ some o ∧ ∃ e, errLookup matrix (syndrome matrix raw) o = some e ∧
    after = { raw := raw ^^^ e, data := dataOf (raw ^^^ e), offset := some o, isReceived := true, hadErrors := true }) ∨
  (obs ≠ some o ∧ errLookup matrix (syndrome matrix raw) o = none ∧ after = { before with hadErrors := true })

/-- The slots RECEIVE makes of `cur`: the slot of the offset in effect is filled, the others stay; they are `cur` afterwards, or,
after D, those of the group emitted (R146, R147, R149). -/
theorem receive_slots_cases (raw : Raw) (obs : Option Offset) (s : State) :
    ∃ slots, (∀ k, k ≠ blockNo s.expected → getSlot slots k = getSlot s.cur k) ∧
      FilledFrom s.cfg.matrix raw obs (effectiveOffset obs s.expected)
        (getSlot s.cur (blockNo s.expected)) (getSlot slots (blockNo s.expected)) ∧
      ((effectiveOffset obs s.expected ≠ .d ∧ (receive raw obs s).cur = slots ∧ (receive raw obs s).out = s.out ∧
          (receive raw obs s).ready = s.ready) ∨
        (effectiveOffset obs s.expected = .d ∧ (receive raw obs s).cur = Slots.fresh ∧
          (receive raw obs s).out = some (receive raw obs s).ready ∧ (receive raw obs s).ready.slots = slots)) := by
  rw [receive_eq_closeBlock rfl rfl rfl, blockNo_effectiveOffset]
  have hf := framedBlock_cases s.cfg raw obs (effectiveOffset obs s.expected)
  generalize effectiveOffset obs s.expected = o at hf ⊢
  generalize framedBlock s.cfg raw o (hadErrorsFlag obs o) = blk at hf ⊢
  refine ⟨filledSlots blk (blockNo s.expected) s.cur, ?_, ?_, ?_⟩
  · intro k hk
    cases blk <;> exact getSlot_setSlot_ne _ _ hk
  · obtain ⟨h, rfl⟩ | ⟨h, e, he, rfl⟩ | ⟨h, he, rfl⟩ := hf
    · exact .inl ⟨h, getSlot_setSlot_same _ _ _⟩
    · exact .inr (.inl ⟨h, e, he, getSlot_setSlot_same _ _ _⟩)
    · exact .inr (.inr ⟨h, he, getSlot_setSlot_same _ _ _⟩)
  · unfold closeBlock
    by_cases hd : o = .d
    · rw [if_pos hd]
      exact .inr ⟨hd, rfl, rfl, rfl⟩
    · rw [if_neg hd]
      exact .inl ⟨hd, by simp⟩

/-- What RECEIVE does to `in_sync` and `errwin`: drop sync or keep the window with this block's flag (R141, R144). -/
theorem receive_sync_cases (raw : Raw) (obs : Option Offset) (s : State) : ∃ unc had,
    (lossFound s.cfg unc (pushWindow s.errwin had) = true ∧ (receive raw obs s).inSync = false ∧
      (receive raw obs s).errwin = List.replicate errwinLen false) ∨
    (lossFound s.cfg unc (pushWindow s.errwin had) = false ∧ (receive raw obs s).inSync = s.inSync ∧
      (receive raw obs s).errwin = pushWindow s.errwin had) := by
  rw [receive_eq_closeBlock rfl rfl rfl]
  have hc : ∀ slots o (t : State), (closeBlock slots o t).inSync = t.inSync ∧ (closeBlock slots o t).errwin = t.errwin := by
    intro slots o t
    unfold closeBlock
    split <;> simp
  simp only [(hc _ _ _).1, (hc _ _ _).2]
  exact ⟨_, _, afterLoss_cases _ _ _⟩

/-- The configuration is constant (R37, R212). -/
theorem after_cfg (i : Instr) (s : State) : (after i s).cfg = s.cfg := by
  cases i <;> simp [after, pushBit_frame]

theorem after_pending (i : Instr) (s : State) : (after i s).pending = s.pending := by
  cases i <;> simp [after, pushBit_frame]

/-! ## What a command emits -/

/-- From `s` to `t` nothing was emitted, and the telemetry is what it was. -/
def Silent (s t : State) : Prop :=
  t.out = none ∧ t.blerwin = s.blerwin ∧ t.ready = s.ready ∧ t.groupReady = s.groupReady

/-- From `s` to `t` the record of some slots was emitted (R164). -/
def Emitted (s t : State) : Prop :=
  ∃ slots, t.out = some t.ready ∧ t.groupReady = true ∧ t.blerwin = pushWindow s.blerwin (nErrOf slots) ∧
    t.ready = groupRecord s.offsetsDisabled slots t.blerwin.sum

theorem receive_emission {s u : State} (raw : Raw) (obs : Option Offset) (h : Silent s u)
    (hd : u.offsetsDisabled = s.offsetsDisabled) :
    Silent s (reloadCount (receive raw obs u)) ∨ Emitted s (reloadCount (receive raw obs u)) := by
  obtain ⟨h1, h2, h3, h4⟩ := h
  have hr := receive_out raw obs u
  by_cases ha : nextOffset u.expected = .a
  · obtain ⟨slots, e1, e2, e3, e4⟩ := hr.2 ha
    refine .inr ⟨slots, by simpa using e2, by simpa using e3, by simpa [h2] using e4, ?_⟩
    simp only [reloadCount_ready, reloadCount_blerwin]
    rw [e1, e4]
    simp [emit, hd]
  · obtain ⟨e1, e2, e3, e4⟩ := hr.1 ha
    exact .inl ⟨by simpa [h1] using e1, by simpa [h2] using e4, by simpa [h3] using e2, by simpa [h4] using e3⟩

theorem pushBit_emission (b : Bool) (s : State) : Silent s (after (.pushBit b) s) ∨ Emitted s (after (.pushBit b) s) := by
  obtain ⟨-, h⟩ | ⟨-, -, -, h⟩ | ⟨-, -, h⟩ | ⟨-, -, o, -, -, h⟩ := after_pushBit_cases b s <;> rw [h]
  · exact .inl ⟨rfl, rfl, rfl, rfl⟩
  · cases observed s.cfg.matrix (shiftIn s.reg b) <;> exact .inl ⟨rfl, rfl, rfl, rfl⟩
  · exact receive_emission _ _ ⟨rfl, rfl, rfl, rfl⟩ rfl
  · exact receive_emission _ _ ⟨rfl, rfl, rfl, rfl⟩ rfl

/-- Every command either emits nothing and then, RESET apart, leaves the BLER window and `ready`, or emits the record of some
slots (R164; 10_state.md R23, R34). -/
theorem after_out (i : Instr) (s : State) :
    ((after i s).out = none ∧ (i ≠ .reset → (after i s).blerwin = s.blerwin ∧ (after i s).ready = s.ready)) ∨
    Emitted s (after i s) := by
  cases i with
  | pushBit b =>
    obtain ⟨h1, h2, h3, -⟩ | h := pushBit_emission b s
    · exact .inl ⟨h1, fun _ => ⟨h2, h3⟩⟩
    · exact .inr h
  | pushGroup rx1 rx2 rx3 rx4 w1 w2 w3 w4 => exact .inr ⟨_, rfl, rfl, rfl, rfl⟩
  | reset => exact .inl ⟨rfl, fun h => absurd rfl h⟩
  | nop => exact .inl ⟨rfl, fun _ => ⟨rfl, rfl⟩⟩
  | popGroup => exact .inl ⟨rfl, fun _ => ⟨rfl, rfl⟩⟩
  | disableOffsets => exact .inl ⟨rfl, fun _ => ⟨rfl, rfl⟩⟩
  | reserved6 => exact .inl ⟨rfl, fun _ => ⟨rfl, rfl⟩⟩
  | reserved7 => exact .inl ⟨rfl, fun _ => ⟨rfl, rfl⟩⟩

end Sys2Proof.Machine
end

