-- ==== Sys2Proof/Laws/Invariant.lean ====
section
/-! SUPPORT. The invariant in two parts, the decoder's and the telemetry's, and what each operation does to each part. -/

namespace Sys2Proof.Machine

/-! ## Slots -/

theorem slotWf_fresh (k : BlockNo) : SlotWf k Slot.fresh where
  data := by intro h; cases h
  offset := by intro h; cases h
  missing := fun _ => ⟨rfl, rfl, rfl⟩

theorem slotsWf_fresh : SlotsWf Slots.fresh := by
  intro k; cases k <;> exact slotWf_fresh _

theorem slotsWf_setSlot {slots : Slots} {k : BlockNo} {sl : Slot} (h : SlotsWf slots) (hs : SlotWf k sl) : SlotsWf (setSlot slots k sl) := by
  intro j
  by_cases hj : j = k
  · subst hj; rw [getSlot_setSlot_same]; exact hs
  · rw [getSlot_setSlot_ne _ _ hj]; exact h j

theorem slotsWf_filledSlots {cfg : Config} {raw : Raw} {o : Offset} {had : Bool} {slots : Slots} (h : SlotsWf slots) :
    SlotsWf (filledSlots (framedBlock cfg raw o had) (blockNo o) slots) := by
  cases hb : framedBlock cfg raw o had with
  | some blk =>
    obtain ⟨h1, h2, h3, h4⟩ := framedBlock_wf hb
    exact slotsWf_setSlot h ⟨fun _ => h1, fun _ => ⟨o, h2, rfl⟩, by rw [h3]; intro h; cases h⟩
  | none => exact slotsWf_setSlot h ⟨(h _).data, (h _).offset, (h _).missing⟩

theorem slotWf_pushedSlot (rx : Bool) (w : Data) (o : Offset) : SlotWf (blockNo o) (pushedSlot rx w o) := by
  cases rx
  · exact slotWf_fresh _
  · exact ⟨fun _ => (dataOf_append w 0).symm, fun _ => ⟨o, rfl, rfl⟩, by intro h; cases h⟩

theorem slotsWf_pushedSlots (rx1 rx2 rx3 rx4 : Bool) (w1 w2 w3 w4 : Data) : SlotsWf (pushedSlots rx1 rx2 rx3 rx4 w1 w2 w3 w4) := by
  intro k; cases k
  · exact slotWf_pushedSlot rx1 w1 .a
  · exact slotWf_pushedSlot rx2 w2 .b
  · exact slotWf_pushedSlot rx3 w3 .c
  · exact slotWf_pushedSlot rx4 w4 .d

/-! ## The two parts of the invariant -/

/-- The part of `State.Inv` about the output register, its flag, the BLER window and the group output. -/
structure TeleWf (s : State) : Prop where
  ready : SlotsWf s.ready.slots
  blerwin : s.blerwin.length = s.cfg.blerN
  blerEntries : ∀ n ∈ s.blerwin, n ≤ 4
  readySum : s.ready.blerSum = s.blerwin.sum
  readyErrors : s.ready.nErr ≤ 4
  out : ∀ g, s.out = some g → g = s.ready ∧ s.groupReady = true

/-- The part of `State.Inv` about the decoder. -/
structure RecWf (s : Decoder) : Prop where
  nbUntil : 1 ≤ s.nbUntil ∧ s.nbUntil ≤ 26
  searchCount : s.inSync = false → s.nbUntil = 1
  expected : s.expected ≠ .cPrime
  cur : SlotsWf s.cur
  since : s.inSync = true → s.bitsSinceLost = 0
  sinceBound : s.bitsSinceLost ≤ 2 ^ s.cfg.sinceW - 1
  searchWindow : s.inSync = false → errSum s.errwin = 0
  ahead : s.inSync = true → ∀ k, blockNum s.expected ≤ blockNoToNat k → getSlot s.cur k = Slot.fresh
  errwin : s.errwin.length = errwinLen
  pulses : HistoryWf s.pulses s.bitcount
  everyBlock : s.cfg.lossCheck = .everyBlock → s.inSync = true → errSum s.errwin ≤ lossThreshold
  distance : s.inSync = true →
    ∃ p, s.pulses.pulse3 = some p ∧ p.bitcount + 26 * errSum s.errwin + (26 - s.nbUntil) ≤ s.bitcount

theorem inv_iff (s : State) : s.Inv ↔ RecWf s.decoder ∧ TeleWf s := by
  constructor
  · intro h; exact ⟨⟨h.1, h.2, h.3, h.4, h.6, h.7, h.8, h.9, h.10, h.16, h.17, h.18⟩, ⟨h.5, h.11, h.12, h.13, h.14, h.15⟩⟩
  · rintro ⟨h, h'⟩
    exact ⟨h.1, h.2, h.3, h.4, h'.1, h.5, h.6, h.7, h.8, h.9, h'.2, h'.3, h'.4, h'.5, h'.6, h.10, h.11, h.12⟩

/-! ## The telemetry part -/

theorem teleWf_emit {slots : Slots} {s : State} (h : TeleWf s) (hs : SlotsWf slots) : TeleWf (emit slots s) where
  ready := by simpa [emit, groupRecord] using hs
  blerwin := by simpa [emit] using h.blerwin
  blerEntries := by
    intro n hn
    simp [emit] at hn
    rcases mem_pushWindow hn with h1 | rfl
    · exact h.blerEntries n h1
    · exact nErrOf_le _
  readySum := rfl
  readyErrors := nErrOf_le _
  out := by intro g hg; simp [emit] at hg ⊢; exact hg.symm

theorem teleWf_clearOut {s : State} (h : TeleWf s) : TeleWf (clearOut s) := ⟨h.1, h.2, h.3, h.4, h.5, by intro g hg; cases hg⟩

theorem teleWf_closeBlock {slots : Slots} {o : Offset} {s : State} (h : TeleWf s) (hs : SlotsWf slots) : TeleWf (closeBlock slots o s) := by
  unfold closeBlock
  split
  · have := teleWf_emit h hs; exact ⟨this.1, this.2, this.3, this.4, this.5, this.6⟩
  · exact ⟨h.1, h.2, h.3, h.4, h.5, h.6⟩

theorem teleWf_receive {raw : Raw} {obs : Option Offset} {s : State} (h : TeleWf s) (hc : SlotsWf s.cur) : TeleWf (receive raw obs s) := by
  rw [receive_eq_closeBlock rfl rfl rfl]
  apply teleWf_closeBlock
  · have := afterLoss_fields s (framedBlock s.cfg raw (effectiveOffset obs s.expected) (hadErrorsFlag obs (effectiveOffset obs s.expected))).isNone (hadErrorsFlag obs (effectiveOffset obs s.expected))
    constructor <;> simp [h.1, h.2, h.4, h.5]
    · exact h.3
    · exact h.6
  · exact slotsWf_filledSlots hc

theorem teleWf_searchStep {obs : Option Offset} {s : State} (h : TeleWf s) : TeleWf (searchStep obs s) := by
  have := searchStep_frame obs s
  obtain ⟨-, h'⟩ | ⟨o, -, -, h'⟩ | ⟨o, -, -, h'⟩ := searchStep_cases obs s <;> rw [h'] <;> exact ⟨h.1, h.2, h.3, h.4, h.5, h.6⟩

theorem slotsWf_searchStep {obs : Option Offset} {s : State} (h : SlotsWf s.cur) : SlotsWf (searchStep obs s).cur := by
  obtain ⟨-, h'⟩ | ⟨o, -, -, h'⟩ | ⟨o, -, -, h'⟩ := searchStep_cases obs s <;> rw [h']
  · exact h
  · exact h
  · exact slotsWf_fresh

theorem teleWf_pushBit {b : Bool} {s : State} (h : TeleWf s) (hc : SlotsWf s.cur) : TeleWf (pushBit b s) := by
  have ht : TeleWf (takeBit b s) := ⟨h.1, h.2, h.3, h.4, h.5, h.6⟩
  rw [pushBit_eq]
  split
  · suffices hb : TeleWf (blockStep (takeBit b s)) from ⟨hb.1, hb.2, hb.3, hb.4, hb.5, hb.6⟩
    obtain ⟨-, h'⟩ | ⟨-, t, rfl, ⟨-, h'⟩ | ⟨-, h'⟩⟩ := blockStep_cases (takeBit b s) <;> rw [h']
    · exact teleWf_receive ht hc
    · exact teleWf_searchStep ht
    · exact teleWf_receive (teleWf_searchStep ht) (slotsWf_searchStep hc)
  · exact ⟨h.1, h.2, h.3, h.4, h.5, h.6⟩

/-! ## The decoder part -/

theorem nextOffset_ne_cPrime (o : Offset) : nextOffset o ≠ .cPrime := by cases o <;> decide

theorem historyWf_mono {h : PulseHistory} {m n : Nat} (hh : HistoryWf h m) (hmn : m ≤ n) : HistoryWf h n :=
  ⟨hh.1, hh.2, hh.3, fun p hp => Nat.le_trans (hh.past p hp) hmn⟩

theorem historyWf_push {h : PulseHistory} {m n : Nat} (o : Offset) (hh : HistoryWf h m) (hmn : m < n) : HistoryWf (pushPulse h o n) n := by
  refine ⟨hh.2, hh.3, ?_, ?_⟩
  · intro p hp; exact ⟨_, rfl, Nat.lt_of_le_of_lt (hh.past p hp) hmn⟩
  · intro p hp; cases hp; exact Nat.le_refl n

theorem closeBlock_cur_expected (slots : Slots) (o : Offset) (s : State) : (closeBlock slots o s).expected = nextOffset o ∧
   (closeBlock slots o s).cur = if o = .d then Slots.fresh else slots := by
  unfold closeBlock; split
  · rename_i h; rw [h]; exact ⟨rfl, rfl⟩
  · exact ⟨rfl, rfl⟩

theorem closeBlock_frame (slots : Slots) (o : Offset) (s : State) : (closeBlock slots o s).inSync = s.inSync ∧
   (closeBlock slots o s).errwin = s.errwin ∧ (closeBlock slots o s).cfg = s.cfg ∧ (closeBlock slots o s).bitcount = s.bitcount ∧
   (closeBlock slots o s).bitsSinceLost = s.bitsSinceLost ∧ (closeBlock slots o s).pulses = s.pulses := by
  unfold closeBlock; split <;> simp

/-- Reception at the end of a block: either the block came 26 bits after the last one, or it is the block on which sync was
just acquired. -/
theorem recWf_receive {raw : Raw} {obs : Option Offset} {s : State}
    (hsync : s.inSync = true) (hcur : SlotsWf s.cur) (hsince : s.bitsSinceLost = 0)
    (hahead : ∀ k, blockNum s.expected ≤ blockNoToNat k → getSlot s.cur k = Slot.fresh) (hlen : s.errwin.length = errwinLen)
    (hp : HistoryWf s.pulses s.bitcount) 
    (hdist : ∃ p, s.pulses.pulse3 = some p ∧ (p.bitcount + 26 * errSum s.errwin + 26 ≤ s.bitcount ∨ errSum s.errwin = 0 ∧ obs = some s.expected ∧ p.bitcount ≤ s.bitcount)) :
    RecWf (reloadCount (receive raw obs s)).decoder := by
  rw [receive_eq_closeBlock rfl rfl rfl]
  set o := effectiveOffset obs s.expected with ho
  set had := hadErrorsFlag obs o
  set blk := framedBlock s.cfg raw o had
  have hbn : blockNum o = blockNum s.expected := congrArg blockNoToNat (blockNo_effectiveOffset obs s.expected)
  obtain ⟨he, hc⟩ := closeBlock_cur_expected (filledSlots blk (blockNo o) s.cur) o (afterLoss blk.isNone had s)
  obtain ⟨c1, c2, c3, c4, c5, c6⟩ := closeBlock_frame (filledSlots blk (blockNo o) s.cur) o (afterLoss blk.isNone had s)
  have haf := afterLoss_fields s blk.isNone had
  obtain ⟨a1, a2, a3, a4, a5, a6, a7, a8, a9, a10, a11, a12, a13, a14⟩ := haf
  have hac := afterLoss_cases s blk.isNone had
  have hfs : SlotsWf (filledSlots blk (blockNo o) s.cur) := slotsWf_filledSlots hcur
  constructor <;> simp only [State.decoder, reloadCount_nbUntil, reloadCount_inSync, reloadCount_expected, reloadCount_cur, reloadCount_bitsSinceLost, reloadCount_cfg, reloadCount_errwin, reloadCount_pulses, reloadCount_bitcount, he, hc, c1, c2, c3, c4, c5, c6, a1, a6, a10, a11]
  · split <;> simp
  · intro h; simp [h]
  · exact nextOffset_ne_cPrime o
  · split
    · exact slotsWf_fresh
    · exact hfs
  · intro; exact hsince
  · omega
  · rcases hac with ⟨h1, h2, h3⟩ | ⟨h1, h2, h3⟩
    · intro; rw [h3]; exact errSum_replicate_false 50
    · intro h; rw [h2, hsync] at h; cases h
  · intro h k hk
    split
    · cases k <;> rfl
    · rename_i hod
      have hlt : blockNum o < blockNum (nextOffset o) := by revert hod; cases o <;> decide
      have hne : k ≠ blockNo o := by
        rintro rfl; have : blockNum o = blockNoToNat (blockNo o) := rfl; omega
      have : getSlot (filledSlots blk (blockNo o) s.cur) k = getSlot s.cur k := by
        cases blk <;> exact getSlot_setSlot_ne _ _ hne
      rw [this]
      apply hahead; omega
  · rcases hac with ⟨h1, h2, h3⟩ | ⟨h1, h2, h3⟩ <;> rw [h3]
    · simp
    · simpa using hlen
  · exact hp
  · intro hev hs
    rcases hac with ⟨h1, h2, h3⟩ | ⟨h1, h2, h3⟩
    · rw [h2] at hs; cases hs
    · rw [h3]
      by_contra hgt
      have := (lossFound_iff s.cfg blk.isNone (pushWindow s.errwin had)).mpr ⟨.inr hev, by simp [lossThreshold] at hgt; omega⟩
      rw [h1] at this; cases this
  · intro hs
    rcases hac with ⟨h1, h2, h3⟩ | ⟨h1, h2, h3⟩
    · rw [h2] at hs; cases hs
    · obtain ⟨p, hp3, hd⟩ := hdist
      refine ⟨p, hp3, ?_⟩
      rw [hs, h3]
      have hle := errSum_pushWindow_le s.errwin had
      have hb1 : ∀ b : Bool, b.toNat ≤ 1 := by decide
      have := hb1 had
      simp only [if_true]
      rcases hd with hd | ⟨hd, hob, hb⟩
      · simp [blockLen]; omega
      · have : had = false := by
          have : o = s.expected := by rw [ho, hob]; exact effectiveOffset_self _
          show hadErrorsFlag obs o = false
          rw [this, hob]; simp [hadErrorsFlag]
        rw [this] at hle ⊢
        simp [blockLen] at hle ⊢; omega

theorem recWf_search {t : State} (hs : t.inSync = false) (hn : t.nbUntil = 1) (he : t.expected ≠ .cPrime) (hc : SlotsWf t.cur)
    (hb : t.bitsSinceLost ≤ 2 ^ t.cfg.sinceW - 1) (hw : errSum t.errwin = 0) (hl : t.errwin.length = errwinLen) (hp : HistoryWf t.pulses t.bitcount) :
    RecWf t.decoder := by
  constructor <;> simp only [State.decoder, hs, hn, Bool.false_eq_true, false_implies, true_implies, implies_true] <;> first | assumption | omega

theorem recWf_pushBit {b : Bool} {s : State} (h : RecWf s.decoder) : RecWf (pushBit b s).decoder := by
  have hb := pushBit_frame b s
  have hbit : s.bitcount ≤ s.bitcount + 1 := by omega
  rw [pushBit_eq]
  split
  · rename_i hn
    have hn1 : s.nbUntil = 1 := by have := h.nbUntil.1; simp [State.decoder] at this; omega
    have hsb : ∀ x : Nat, min (x + 1) (2 ^ s.cfg.sinceW - 1) ≤ 2 ^ s.cfg.sinceW - 1 := fun x => Nat.min_le_right _ _
    unfold blockStep
    cases hs : s.inSync with
    | true =>
      simp only [takeBit_inSync, hs, if_true]
      obtain ⟨p, hp3, hd⟩ := h.distance hs
      simp [State.decoder] at hd
      apply recWf_receive
      · exact hs
      · exact h.cur
      · exact h.since hs
      · exact h.ahead hs
      · exact h.errwin
      · exact historyWf_mono (m := s.bitcount) h.pulses hbit
      · refine ⟨p, hp3, .inl ?_⟩
        simp only [takeBit_errwin, takeBit_bitcount]
        omega
    | false =>
      simp only [takeBit_inSync, hs, Bool.false_eq_true, if_false]
      generalize hobs : observed (takeBit b s).cfg.matrix (takeBit b s).reg = obs
      have hw := h.searchWindow hs
      have hpm : HistoryWf s.pulses (s.bitcount + 1) := historyWf_mono (m := s.bitcount) h.pulses hbit
      obtain ⟨-, h'⟩ | ⟨o, -, hf, h'⟩ | ⟨o, ho, hf, h'⟩ := searchStep_cases obs (takeBit b s) <;> rw [h']
      · simp only [countSearchBit_inSync, takeBit_inSync, hs, Bool.false_eq_true, if_false]
        apply recWf_search <;> simp [hs]
        · exact h.expected
        · exact h.cur
        · exact hw
        · exact h.errwin
        · exact hpm
      · simp only [countSearchBit_inSync, takeBit_inSync, hs, Bool.false_eq_true, if_false]
        apply recWf_search <;> simp
        · exact h.expected
        · exact h.cur
        · exact hw
        · exact h.errwin
        · exact historyWf_push (m := s.bitcount) o h.pulses (Nat.lt_succ_self _)
      · simp only [acquire_inSync, if_true]
        apply recWf_receive
        · rfl
        · exact slotsWf_fresh
        · rfl
        · intro k _; cases k <;> rfl
        · exact h.errwin
        · exact historyWf_push (m := s.bitcount) o h.pulses (Nat.lt_succ_self _)
        · exact ⟨_, rfl, .inr ⟨hw, ho, Nat.le_refl _⟩⟩
  · rename_i hn
    have hsync : s.inSync = true := by
      by_contra hc; have := h.searchCount (show s.inSync = false by simpa using hc); simp [State.decoder] at this; omega
    have hnb := h.nbUntil
    obtain ⟨p, hp, hd⟩ := h.distance hsync
    simp [State.decoder] at hnb hd
    constructor <;> simp only [State.decoder, takeBit_inSync, takeBit_expected, takeBit_cur, takeBit_bitsSinceLost, takeBit_cfg, takeBit_errwin, takeBit_bitcount, takeBit_pulses]
    · omega
    · intro hc; rw [hsync] at hc; cases hc
    · exact h.expected
    · exact h.cur
    · exact h.since
    · exact h.sinceBound
    · exact h.searchWindow
    · exact h.ahead
    · exact h.errwin
    · exact historyWf_mono (m := s.bitcount) h.pulses hbit
    · exact h.everyBlock
    · intro _
      exact ⟨p, hp, by omega⟩

end Sys2Proof.Machine
end

