-- ==== Sys2Proof/Laws/Blocks.lean ====
section
/-! SUPPORT. Runs of PUSH_BIT: the register after a list of bits, and a whole block pushed in sync. -/

namespace Sys2Proof.Machine

/-! ## The register -/

theorem shiftIn_getLsbD (reg : Raw) (b : Bool) (i : Nat) (hi : i < 26) :
    (shiftIn reg b).getLsbD i = if i = 0 then b else reg.getLsbD (i - 1) := by
  unfold shiftIn
  have h : (reg.extractLsb' 0 25 ++ BitVec.ofBool b).getLsbD i =
      if i < 1 then (BitVec.ofBool b).getLsbD i else (reg.extractLsb' 0 25).getLsbD (i - 1) := BitVec.getLsbD_append
  rw [h]
  rcases i with _ | i
  · simp
  · rw [if_neg (by omega), if_neg (by omega), BitVec.getLsbD_extractLsb']
    simp
    omega

/-- `shiftIn` is a shift left by one with the new bit at bit 0 (R130). -/
theorem shiftIn_eq_shift (reg : Raw) (b : Bool) : shiftIn reg b = (reg <<< 1) ||| (BitVec.ofBool b).setWidth 26 := by
  apply BitVec.eq_of_getLsbD_eq
  intro i hi
  rw [shiftIn_getLsbD reg b i hi, BitVec.getLsbD_or, BitVec.getLsbD_shiftLeft, BitVec.getLsbD_setWidth, BitVec.getLsbD_ofBool]
  rcases i with _ | i
  · simp
  · simp [hi]

/-- The register after a list of bits, the last at bit 0. -/
theorem foldl_shiftIn_getLsbD (bits : List Bool) (reg : Raw) (i : Nat) (hi : i < 26) :
    (bits.foldl shiftIn reg).getLsbD i =
      if i < bits.length then bits.reverse.getD i false else reg.getLsbD (i - bits.length) := by
  induction bits generalizing reg with
  | nil => simp
  | cons b l ih =>
    rw [List.foldl_cons, ih]
    by_cases h1 : i < l.length
    · simp [h1, show i < l.length + 1 by omega, List.getD]
    · rw [if_neg h1, shiftIn_getLsbD _ _ _ (by omega)]
      by_cases h2 : i = l.length
      · subst h2
        simp [List.getD]
      · simp [show ¬ i < l.length + 1 by omega, show i - l.length ≠ 0 by omega]
        congr 1

@[simp] theorem bitsMsbFirst_length {n : Nat} (v : BitVec n) : (bitsMsbFirst v).length = n := by simp [bitsMsbFirst]

/-- Once the 26 bits of a block are shifted in, the register holds it (R50). -/
theorem foldl_shiftIn_block (r reg : Raw) : (bitsMsbFirst r).foldl shiftIn reg = r := by
  apply BitVec.eq_of_getLsbD_eq
  intro i hi
  rw [foldl_shiftIn_getLsbD _ _ _ hi, bitsMsbFirst_length, if_pos hi]
  unfold bitsMsbFirst
  rw [List.getD_eq_getElem?_getD, List.getElem?_reverse (by simpa using hi)]
  simp [show 26 - 1 - i < 26 by omega, show 25 - (25 - i) = i by omega]

/-! ## Runs -/

theorem execAll_pushBit_reg (bits : List Bool) (s : State) :
    (execAll (bits.map .pushBit) s).reg = bits.foldl shiftIn s.reg ∧
    (execAll (bits.map .pushBit) s).bitcount = s.bitcount + bits.length ∧
    (execAll (bits.map .pushBit) s).cfg = s.cfg := by
  induction bits generalizing s with
  | nil => exact ⟨rfl, rfl, rfl⟩
  | cons b l ih =>
    have h := pushBit_frame b (clearOut s)
    rw [List.map_cons, execAll_cons]
    obtain ⟨h1, h2, h3⟩ := ih (after (.pushBit b) s)
    rw [h1, h2, h3]
    refine ⟨?_, ?_, h.1⟩
    · rw [List.foldl_cons]
      exact congrArg (fun x => l.foldl shiftIn x) h.2.1
    · have : (after (.pushBit b) s).bitcount = s.bitcount + 1 := h.2.2.1
      rw [this, List.length_cons]
      omega

/-- Bits inside a block are shifted in and counted, and nothing else happens (R130). -/
theorem execAll_inside (bits : List Bool) (s : State) (hne : bits ≠ []) (h : bits.length < s.nbUntil) :
    execAll (bits.map .pushBit) s = { s with
      reg := bits.foldl shiftIn s.reg, bitcount := s.bitcount + bits.length, nbUntil := s.nbUntil - bits.length, out := none } := by
  induction bits generalizing s with
  | nil => exact absurd rfl hne
  | cons b l ih =>
    rw [List.length_cons] at h
    rw [List.map_cons, execAll_cons, after_pushBit_inside (by omega)]
    rcases l with _ | ⟨c, l⟩
    · rfl
    · rw [ih _ (by simp) (by simp only [List.length_cons] at h ⊢; omega)]
      simp [takeBit, clearOut]
      omega

/-- A whole block pushed in sync from a block boundary is received once, at its last bit (R130, R132). -/
theorem execAll_block (r : Raw) (s : State) (hs : s.inSync = true) (hn : s.nbUntil = 26) :
    execAll (pushBitsCommands r) s = reloadCount (receive r (observed s.cfg.matrix r)
      { s with reg := r, bitcount := s.bitcount + 26, nbUntil := 1, out := none }) := by
  have hlen := bitsMsbFirst_length r
  obtain ⟨l, b, hb⟩ : ∃ l b, bitsMsbFirst r = l ++ [b] := by
    rcases List.eq_nil_or_concat (bitsMsbFirst r) with h | ⟨l, b, h⟩
    · rw [h] at hlen
      cases hlen
    · exact ⟨l, b, by simpa using h⟩
  have hl : l.length = 25 := by
    rw [hb] at hlen
    simpa using hlen
  have hreg : shiftIn (l.foldl shiftIn s.reg) b = r := by
    have := foldl_shiftIn_block r s.reg
    rw [hb, List.foldl_append] at this
    exact this
  have hne : l ≠ [] := by
    rintro rfl
    cases hl
  unfold pushBitsCommands
  rw [hb, List.map_append, execAll_append, execAll_inside l s hne (by omega), List.map_cons, List.map_nil, execAll_cons]
  refine (after_pushBit_receive (by simp only; omega) (by exact hs)).trans ?_
  simp only [hreg, hl, hn, takeBit, clearOut]

end Sys2Proof.Machine
end

