-- ==== Sys2Proof/Laws/Encoding.lean ====
section
/-! SUPPORT. The decoder by the three opcode bits, and the masks of the opcode table. -/

namespace Sys2Proof

/-- The command of a word, by its opcode bits 71, 70, 69 (R71). -/
def decodeBits (b71 b70 b69 : Bool) (w : CommandWord) : Instr :=
  match b71, b70, b69 with
  | false, false, false => .nop
  | false, false, true => .pushBit (bField w)
  | false, true, false => .popGroup
  | false, true, true =>
    .pushGroup (rx1Field w) (rx2Field w) (rx3Field w) (rx4Field w) (w1Field w) (w2Field w) (w3Field w) (w4Field w)
  | true, false, false => .disableOffsets
  | true, false, true => .reset
  | true, true, false => .reserved6
  | true, true, true => .reserved7

theorem opField_getLsbD (w : CommandWord) (i : Nat) (h : i < 3) : (opField w).getLsbD i = w.getLsbD (69 + i) := by
  unfold opField
  rw [BitVec.getLsbD_extractLsb']
  simp [h]

theorem decode_eq (w : CommandWord) : decode w = decodeBits (w.getLsbD 71) (w.getLsbD 70) (w.getLsbD 69) w := by
  have h0 := opField_getLsbD w 0 (by decide)
  have h1 := opField_getLsbD w 1 (by decide)
  have h2 := opField_getLsbD w 2 (by decide)
  have hx : ∀ x : BitVec 3, x.toNat = (x.getLsbD 2).toNat * 4 + (x.getLsbD 1).toNat * 2 + (x.getLsbD 0).toNat := by decide
  unfold decode
  rw [hx, h0, h1, h2]
  cases w.getLsbD 71 <;> cases w.getLsbD 70 <;> cases w.getLsbD 69 <;> rfl

/-- The bits of a word under the opcode mask of the table. -/
theorem opcode_mask_getLsbD (w : CommandWord) (i : Nat) :
    (w &&& 0xE00000000000000000).getLsbD i = (w.getLsbD i && (decide (69 ≤ i) && decide (i < 72))) := by
  rw [BitVec.getLsbD_and]
  by_cases hi : i < 72
  · congr 1
    have h : ∀ i : Fin 72, (0xE00000000000000000 : CommandWord).getLsbD i.val = (decide (69 ≤ i.val) && decide (i.val < 72)) := by
      decide
    exact h ⟨i, hi⟩
  · rw [BitVec.getLsbD_of_ge w i (by omega)]
    simp

/-- The match value of a row of the table: its opcode bits, zeros below. -/
def rowMatch (b71 b70 b69 : Bool) : CommandWord :=
  BitVec.ofBool b71 ++ BitVec.ofBool b70 ++ BitVec.ofBool b69 ++ noFields

theorem rowMatch_getLsbD (b71 b70 b69 : Bool) (i : Fin 72) : (rowMatch b71 b70 b69).getLsbD i.val =
    ((decide (i.val = 71) && b71) || (decide (i.val = 70) && b70) || (decide (i.val = 69) && b69)) := by
  revert b71 b70 b69 i
  decide

/-- A word matches a row of the table exactly when its opcode bits are the row's (R71). -/
theorem opcode_mask_eq_iff (w : CommandWord) (b71 b70 b69 : Bool) :
    w &&& 0xE00000000000000000 = rowMatch b71 b70 b69 ↔
      w.getLsbD 71 = b71 ∧ w.getLsbD 70 = b70 ∧ w.getLsbD 69 = b69 := by
  constructor
  · intro h
    have hb := fun i : Fin 72 =>
      (opcode_mask_getLsbD w i.val).symm.trans ((congrArg (fun v => BitVec.getLsbD v i.val) h).trans (rowMatch_getLsbD b71 b70 b69 i))
    exact ⟨by simpa using hb 71, by simpa using hb 70, by simpa using hb 69⟩
  · rintro ⟨h71, h70, h69⟩
    apply BitVec.eq_of_getLsbD_eq
    intro i hi
    rw [opcode_mask_getLsbD, rowMatch_getLsbD b71 b70 b69 ⟨i, hi⟩]
    by_cases h1 : i = 71
    · subst h1; simpa using h71
    · by_cases h2 : i = 70
      · subst h2; simpa using h70
      · by_cases h3 : i = 69
        · subst h3; simpa using h69
        · have : ¬ 69 ≤ i := by omega
          simp [h1, h2, h3, this]

end Sys2Proof
end

