-- ==== Sys2Proof/Laws/PerInstr.lean ====
section
/-! SUPPORT. Statements made per command, as syntax: its word matches the row of spec/opcode_table.json it stands for. -/

namespace Sys2Proof.Laws.TableRow

/-- The `match` of each command's row under the opcode mask (30_encoding.md R71). -/
def row : Instr → CommandWord
  | .nop => 0x000000000000000000
  | .pushBit _ => 0x200000000000000000
  | .popGroup => 0x400000000000000000
  | .pushGroup _ _ _ _ _ _ _ _ => 0x600000000000000000
  | .disableOffsets => 0x800000000000000000
  | .reset => 0xA00000000000000000
  | .reserved6 => 0xC00000000000000000
  | .reserved7 => 0xE00000000000000000

/-- The word of the command is a word of its row. -/
def Statement (i : Instr) : Prop := encode i &&& 0xE00000000000000000 = row i

theorem nop : Statement .nop := by
  unfold Statement
  decide

theorem pushBit (b : Bool) : Statement (.pushBit b) := by
  unfold Statement
  cases b <;> decide

theorem popGroup : Statement .popGroup := by
  unfold Statement
  decide

theorem pushGroup (rx1 rx2 rx3 rx4 : Bool) (w1 w2 w3 w4 : Data) : Statement (.pushGroup rx1 rx2 rx3 rx4 w1 w2 w3 w4) := by
  show encode _ &&& _ = rowMatch false true true
  rw [opcode_mask_eq_iff]
  simp only [encode, BitVec.getLsbD_append]
  norm_num
  decide

theorem disableOffsets : Statement .disableOffsets := by
  unfold Statement
  decide

theorem reset : Statement .reset := by
  unfold Statement
  decide

theorem reserved6 : Statement .reserved6 := by
  unfold Statement
  decide

theorem reserved7 : Statement .reserved7 := by
  unfold Statement
  decide

end Sys2Proof.Laws.TableRow
end

