-- ==== Sys2Proof/Tests/Slice0.lean ====
section
/-! SUPPORT. The model's own tests, their expected results from 95_test_vectors.md unless a comment says otherwise, and for
every obligation with hypotheses a witness: a concrete state and operands that meet them all. -/

namespace Sys2Proof.Tests

open Sys2Proof.Machine

/-! ## Helpers -/

/-- The state after a step, where it answers one. -/
def nextOf (o : Host.Outcome State Fault Refusal) : Option State :=
  match o with
  | .next t => some t
  | .fault _ => none
  | .refused _ => none

/-- A value read from the state after a command. -/
def read {α : Type} (i : Instr) (s : State) (f : State → α) : Option α := (nextOf (exec i s)).map f

/-- A state one bit before the end of block `r`, whose last bit is to be pushed; out of sync. -/
def searching (r : Raw) : State := { State.reset with reg := r >>> 1, bitcount := 125 }

/-- The last bit of a block. -/
def lastBit (r : Raw) : Bool := r.getLsbD 0

/-- In sync, with `o` expected, the last pulse long ago, and `errors` errors in the loss window. -/
def synced (r : Raw) (o : Offset) (errors nb : Nat) : State := { State.reset with
  reg := r >>> 1
  bitcount := 5000
  nbUntil := nb
  expected := o
  inSync := true
  pulses := { PulseHistory.empty with pulse3 := some { offset := .b, bitcount := 59 } }
  errwin := List.replicate (50 - errors) false ++ List.replicate errors true }

/-- In sync, one bit before the end of block `r`. -/
def receiving (r : Raw) (o : Offset) (errors : Nat) : State := synced r o errors 1

theorem getSlot_fresh (k : BlockNo) : getSlot Slots.fresh k = Slot.fresh := by cases k <;> rfl

/-- `synced` meets the invariant. -/
theorem synced_inv (r : Raw) (o : Offset) (errors nb : Nat) (ho : o ≠ .cPrime) (he : errors ≤ 50) (hn : 1 ≤ nb ∧ nb ≤ 26) :
    (synced r o errors nb).Inv := by
  rw [inv_iff]
  have hsum : errSum (List.replicate (50 - errors) false ++ List.replicate errors true) = errors := by
    simp [errSum, List.count_append, List.count_replicate]
  constructor
  · constructor
    · exact hn
    · intro h
      cases h
    · exact ho
    · exact slotsWf_fresh
    · exact fun _ => rfl
    · exact Nat.zero_le _
    · intro h
      cases h
    · exact fun _ k _ => getSlot_fresh k
    · show (List.replicate (50 - errors) false ++ List.replicate errors true).length = 50
      rw [List.length_append, List.length_replicate, List.length_replicate]
      omega
    · refine ⟨?_, ?_, ?_, ?_⟩
      · intro p h
        cases h
      · intro p h
        cases h
      · intro p h
        cases h
      · intro p h
        cases h
        exact (by omega : 59 ≤ 5000)
    · intro h
      cases h
    · intro _
      refine ⟨_, rfl, ?_⟩
      show 59 + 26 * errSum (List.replicate (50 - errors) false ++ List.replicate errors true) + (26 - nb) ≤ 5000
      rw [hsum]
      omega
  · constructor
    · exact slotsWf_fresh
    · rfl
    · intro n hn'
      have := List.eq_of_mem_replicate hn'
      omega
    · rfl
    · exact Nat.zero_le _
    · intro g h
      cases h

/-! ## WellFormed: each check and an ill-formed term it refuses -/

theorem test_wf_reserved6 : Instr.reserved6.issuable = false := by decide

theorem test_wf_reserved7 : Instr.reserved7.issuable = false := by decide

theorem test_wf_nop : Instr.nop.issuable = true := by decide

theorem test_wf_bler_zero : ¬ ({ defaultConfig with blerN := 0 }).Legal := fun h => absurd h.blerN (by decide)

theorem test_wf_since_zero : ¬ ({ defaultConfig with sinceW := 0 }).Legal := fun h => absurd h.sinceW (by decide)

theorem test_wf_matrix_zero : ¬ ({ defaultConfig with matrix := Vector.replicate 26 0 }).Legal :=
  fun h => absurd (h.matrix.nonzero .a) (by decide +kernel)

theorem test_wf_default : defaultConfig.Legal := ⟨by decide, by decide, defaultMatrix_admissible⟩

theorem test_wf_push_bits_none : asmLegal (.pushBits 0 0) = false := by decide

theorem test_wf_push_bits_one : asmLegal (.pushBits 1 1) = true := by decide

/-! ## Decode (95_test_vectors.md section 2.9) -/

theorem test_decode_nop : decode 0x000000000000000000 = .nop ∧ decode 0x1FFFFFFFFFFFFFFFFF = .nop := by decide

theorem test_decode_push_bit : decode 0x200000000000000000 = .pushBit false ∧ decode 0x200000000000000001 = .pushBit true ∧
    decode 0x3FFFFFFFFFFFFFFFFE = .pushBit false := by decide

theorem test_decode_pop_group : decode 0x400000000000000000 = .popGroup ∧ decode 0x5ABCDEF01234567899 = .popGroup := by
  decide

theorem test_decode_push_group :
    decode 0x6FD3C20C03D3C24D50 = .pushGroup true true true true 0xD3C2 0x0C03 0xD3C2 0x4D50 ∧
    decode 0x6BD3C20400E0E14D44 = .pushGroup true false true true 0xD3C2 0x0400 0xE0E1 0x4D44 ∧
    decode 0x7BD3C20400E0E14D44 = .pushGroup true false true true 0xD3C2 0x0400 0xE0E1 0x4D44 ∧
    decode 0x60D3C20400E0E14D44 = .pushGroup false false false false 0xD3C2 0x0400 0xE0E1 0x4D44 := by decide

theorem test_decode_disable_offsets : decode 0x800000000000000000 = .disableOffsets := by decide

theorem test_decode_reset : decode 0xA00000000000000000 = .reset := by decide

theorem test_decode_reserved : decode 0xC00000000000000000 = .reserved6 ∧ decode 0xFFFFFFFFFFFFFFFFFF = .reserved7 := by
  decide

theorem test_encode_push_group :
    encode (.pushGroup true false true true 0xD3C2 0x0400 0xE0E1 0x4D44) = 0x6BD3C20400E0E14D44 := by decide

theorem test_table_word : decodeTableWord 72 0x200000000000000001 = some (.pushBit true) ∧
    decodeTableWord 72 0xA00000000000000000 = some .reset := by decide

/-! ## The code (sections 2.1 to 2.5 and 3) -/

theorem test_syndrome : [0x0000000, 0x3FFFFFF, 0x0000001, 0x0000400, 0x2000000, 0x00003FF, 0x3FFFC00, 0x2AAAAAA, 0x1555555,
    0x00005B9, 0x2DC8000].map (syndrome defaultMatrix) =
      [0x000, 0x19E, 0x31B, 0x313, 0x200, 0x36F, 0x2F1, 0x114, 0x08A, 0x000, 0x000] := by decide +kernel

theorem test_observed : [0x00000FC, 0x0000198, 0x0000168, 0x0000350, 0x00001B4, 0x3FFFFFF].map (observed defaultMatrix) =
    [some .a, some .b, some .c, some .cPrime, some .d, none] := by decide +kernel

theorem test_encode_block : encodeBlock 0xFFFF .a = 0x3FFFC31 ∧ encodeBlock 0x8000 .d = 0x20001C3 ∧
    encodeBlock 0x1234 .b = 0x048D10E ∧ encodeBlock 0xD3C2 .cPrime = 0x34F0884 ∧ encodeBlock 0xE0E1 .c = 0x3838770 := by
  decide +kernel

theorem test_err_table_rows : burstKey defaultMatrix .a 0x0000001 = 0x0C3 ∧ burstKey defaultMatrix .d 0x2000000 = 0x058 ∧
    burstKey defaultMatrix .cPrime 0x0000180 = 0x101 ∧ burstKey defaultMatrix .c 0x3000000 = 0x15C := by decide +kernel

theorem test_correct_hits : correct defaultMatrix 0x34F0B29 .a = (true, 0x34F0B28) ∧
    correct defaultMatrix 0x04F0B28 .a = (true, 0x34F0B28) ∧ correct defaultMatrix 0x01002F0 .b = (true, 0x01002E8) := by
  decide +kernel

theorem test_correct_misses : correct defaultMatrix 0x34F0B2D .a = (false, 0x34F0B2D) ∧
    correct defaultMatrix 0x34F0B2F .a = (false, 0x34F0B2F) ∧ correct defaultMatrix 0x34F0885 .c = (false, 0x34F0885) := by
  decide +kernel

theorem test_false_correction : correct defaultMatrix 0x01002E8 .a = (true, 0x01C02E8) := by decide +kernel

/-! ## Search (section 2.6) -/

/-- A history of four pulses, oldest first. -/
def history (p0 p1 p2 p3 : Option (Offset × Nat)) : PulseHistory where
  pulse0 := p0.map fun p => { offset := p.1, bitcount := p.2 }
  pulse1 := p1.map fun p => { offset := p.1, bitcount := p.2 }
  pulse2 := p2.map fun p => { offset := p.1, bitcount := p.2 }
  pulse3 := p3.map fun p => { offset := p.1, bitcount := p.2 }

theorem test_sequence_found :
    sequenceFound (history none none (some (.a, 100)) (some (.b, 126))) = true ∧
    sequenceFound (history none none (some (.a, 100)) (some (.c, 256))) = true ∧
    sequenceFound (history none (some (.a, 100)) (some (.d, 120)) (some (.a, 204))) = true ∧
    sequenceFound (history (some (.d, 74)) (some (.b, 90)) (some (.c, 91)) (some (.a, 100))) = true ∧
    sequenceFound (history (some (.b, 10)) (some (.b, 36)) (some (.c, 40)) (some (.cPrime, 62))) = true := by decide

theorem test_sequence_not_found :
    sequenceFound (history none none (some (.a, 100)) (some (.c, 126))) = false ∧
    sequenceFound (history none none (some (.a, 100)) (some (.b, 127))) = false ∧
    sequenceFound (history none none (some (.a, 100)) (some (.d, 282))) = false ∧
    sequenceFound (history none none none (some (.a, 100))) = false ∧
    sequenceFound (history (some (.a, 0)) (some (.b, 1000)) (some (.c, 2000)) (some (.d, 2156))) = false := by decide

/-! ## Groups (sections 2.7 and 2.8) -/

/-- A received slot with these data and offset. -/
def okSlot (d : Data) (o : Offset) (errors : Bool) : Slot where
  raw := encodeBlock d o
  data := d
  offset := some o
  isReceived := true
  hadErrors := errors

/-- An uncorrectable slot. -/
def lostSlot : Slot := { Slot.fresh with hadErrors := true }

theorem test_group_corrected :
    let g := groupRecord false (⟨okSlot 0xD3C2 .a false, okSlot 0x0402 .b true, okSlot 0xE0E1 .c false, okSlot 0x4A55 .d true⟩) 3
    g.nErr = 2 ∧ g.typeNumber = 0 ∧ g.typeVersion = false ∧ g.hasType = true ∧ hasPI g = true ∧ isEmpty g = false := by
  decide +kernel

theorem test_group_version_b :
    let slots (o : Offset) : Slots := ⟨Slot.fresh, okSlot 0x0C03 .b false, okSlot 0xD3C2 o false, okSlot 0x4D50 .d false⟩
    (groupRecord false (slots .cPrime) 0).hasType = true ∧ hasPI (groupRecord false (slots .cPrime) 0) = true ∧
    (groupRecord false (slots .c) 0).hasType = false ∧ (groupRecord true (slots .c) 0).hasType = true ∧
    hasPI (groupRecord false (slots .c) 0) = false ∧ (groupRecord false (slots .c) 0).typeVersion = true := by decide +kernel

theorem test_group_empty :
    let g := groupRecord false (⟨lostSlot, lostSlot, lostSlot, lostSlot⟩) 4
    g.nErr = 4 ∧ g.hasType = false ∧ isEmpty g = true ∧ hasPI g = false := by decide

theorem test_bler_pct : [0, 1, 6, 18, 30, 37, 42, 48].map (blerPct 12) = [0, 2, 13, 38, 63, 77, 88, 100] ∧
    [0, 1, 2, 3, 4].map (blerPct 1) = [0, 25, 50, 75, 100] := by decide

/-! ## One step of each command -/

/-- NOP leaves a set flag (42_group_bler_commands.md R171). -/
theorem test_step_nop : read .nop { State.reset with groupReady := true } (fun t => t.groupReady) = some true := by decide

/-- Section 2.3: 0x2AAAAAA then 1 is 0x1555555; and program P1, bit 59: the block 0x01002E8 after a pulse (A, 33). -/
theorem test_step_push_bit_search :
    read (.pushBit true) { State.reset with reg := 0x2AAAAAA, inSync := true, nbUntil := 2 }
      (fun t => (t.reg, t.bitcount, t.nbUntil)) = some (0x1555555, 1, 1) ∧
    let s := { searching 0x01002E8 with bitcount := 58, bitsSinceLost := 58, pulses := history none none none (some (.a, 33)) }
    read (.pushBit false) s (fun t => (t.inSync, t.expected, t.nbUntil, t.bitsSinceLost)) = some (true, .c, 26, 0) ∧
    read (.pushBit false) s (fun t => (t.cur.slot2, t.pulses.pulse3)) =
      some (⟨0x01002E8, 0x0400, some .b, true, false⟩, some ⟨.b, 59⟩) := by decide +kernel

/-- Section 2.4: C′ where C is expected; and program P5, bit 1404: a corrected block as the 46th error, under each setting of
LOSS_CHECK. -/
theorem test_step_push_bit_receive :
    read (.pushBit false) (receiving 0x34F0884 .c 0) (fun t => (t.cur.slot3, t.expected)) =
      some (⟨0x34F0884, 0xD3C2, some .cPrime, true, false⟩, .d) ∧
    read (.pushBit false) (receiving 0x0100268 .b 45) (fun t => (t.inSync, errSum t.errwin, t.cur.slot2)) =
      some (true, 46, ⟨0x01002E8, 0x0400, some .b, true, true⟩) ∧
    read (.pushBit false)
      { receiving 0x0100268 .b 45 with cfg := { defaultConfig with lossCheck := .everyBlock } }
      (fun t => (t.inSync, errSum t.errwin, t.expected, t.nbUntil, t.cur.slot2)) =
        some (false, 0, .c, 1, ⟨0x01002E8, 0x0400, some .b, true, true⟩) := by decide +kernel

theorem test_step_pop_group :
    read .popGroup { State.reset with groupReady := true } (fun t => (t.groupReady, sr0 t)) = some (false, 0) := by decide

/-- Program P4, command 2. -/
theorem test_step_push_group :
    read (.pushGroup true true true true 0xD3C2 0x0C03 0xD3C2 0x4D50) State.reset
      (fun t => (t.ready.hasType, t.ready.nErr, t.groupReady, sr5 t)) =
    some (false, 0, true, 0x0010626A826A8000AD3C2D3C200121806180600234F0B4F0800) := by decide +kernel

/-- Program P4, command 6: block 2 not received. -/
theorem test_step_push_group_missing :
    read (.pushGroup true false true true 0xD3C2 0x0400 0xE0E1 0x4D44) { State.reset with offsetsDisabled := true }
      (fun t => (t.ready.hasType, t.ready.noOffsets, t.ready.nErr, sr2 t, sr3 t)) = some (false, true, 1, 1, 2) := by
  decide +kernel

theorem test_step_disable_offsets : read .disableOffsets State.reset sr0 = some 0b100 := by decide

theorem test_step_reset : read .reset (receiving 0x01002E8 .b 45) (fun t => (t.inSync, t.nbUntil, errSum t.errwin, sr4 t)) =
    some (false, 1, 0, 12) := by decide +kernel

theorem test_step_reserved6 : read .reserved6 { State.reset with bitcount := 7 } (fun t => t.bitcount) = some 7 := by decide

theorem test_step_reserved7 : read .reserved7 { State.reset with bitcount := 7 } (fun t => t.bitcount) = some 7 := by decide

/-- The ports after RESET (the example of 70_reset_and_hazards.md R210). -/
theorem test_ports_after_reset : sr0 State.reset = 0 ∧ sr1 State.reset = 0 ∧ sr2 State.reset = 0 ∧ sr3 State.reset = 0 ∧
    sr4 State.reset = 12 ∧ sr5 State.reset = 0x0000280000000000500000000000A0000000000140000000000 := by decide +kernel

/-- The word placed for the host's probe is the next command. -/
theorem test_step_fetch_word :
    (nextOf (step (State.reset.withFetchWord 72 0x200000000000000001))).map (fun t => (t.reg, t.pending)) = some (1, []) := by
  decide +kernel

/-! ## Witnesses: for each obligation, a state and operands that meet its hypotheses -/

/-- A second admissible matrix: the remainder itself (40_code_functions.md R102 admits any change of basis). -/
theorem remainderMatrix_admissible : Admissible remainderMatrix where
  codewords := by
    intro d o
    unfold offsetSyn
    rw [← remainder_eq_rows, ← remainder_eq_rows, remainder_encodeBlock, remainder_lowBits]
  rank := fun s => ⟨lowBits s, by rw [← remainder_eq_rows, remainder_lowBits]⟩
  distinct := by
    intro o₁ o₂ h
    unfold offsetSyn at h
    rw [← remainder_eq_rows, ← remainder_eq_rows, remainder_lowBits, remainder_lowBits] at h
    exact offsetWord_injective h
  nonzero := by
    intro o
    unfold offsetSyn
    rw [← remainder_eq_rows, remainder_lowBits]
    cases o <;> decide

theorem witness_StepRunsTheDecodedCommand :
    (∃ (s : State) (w : CommandWord) (rest : List CommandWord), s.pending = w :: rest) ∧ ∃ s : State, s.pending = [] :=
  ⟨⟨present 0x200000000000000001 State.reset, _, _, rfl⟩, State.reset, rfl⟩

theorem witness_NopChangesNothing :
    (0x1FFFFFFFFFFFFFFFFF : CommandWord).extractLsb' 69 3 = 0b000 ∧ (0xC00000000000000000 : CommandWord).extractLsb' 69 3 = 0b110 ∧
    (0xFFFFFFFFFFFFFFFFFF : CommandWord).extractLsb' 69 3 = 0b111 := by decide

theorem witness_PopGroupClearsTheFlagOnly :
    (0x5ABCDEF01234567899 : CommandWord).extractLsb' 69 3 = 0b010 ∧ State.reset.groupReady = false := by decide

theorem witness_DisableOffsetsSetsTheFlagOnly :
    (0x800000000000000000 : CommandWord).extractLsb' 69 3 = 0b100 ∧
    ({ State.reset with offsetsDisabled := true }).offsetsDisabled = true ∧ Instr.nop ≠ .reset := by decide

theorem witness_ResetGivesTheInitialState :
    (receiving 0x01002E8 .b 45).cfg = defaultConfig ∧ (receiving 0x01002E8 .b 45).pending = [] ∧
    ∀ n ∈ [1, 12, 255], 1 ≤ (State.initial { defaultConfig with blerN := n }).cfg.blerN ∧
      (State.initial { defaultConfig with blerN := n }).cfg.blerN < 256 := ⟨rfl, rfl, by decide⟩

theorem witness_PushGroupEmitsTheWords : (0x0C03 : Data).getLsbD 11 = true := by decide

theorem witness_PushBitInsideABlock : 2 ≤ (synced 0 .b 0 2).nbUntil ∧ 2 ≤ (synced 0 .b 0 26).nbUntil := by decide

theorem witness_SearchStepWithoutOffset : (searching 0).inSync = false ∧ (searching 0).nbUntil = 1 ∧
    observed (searching 0).cfg.matrix (shiftIn (searching 0).reg (lastBit 0)) = none := by decide +kernel

theorem witness_SearchStepRecordsAPulse : let s := searching 0x01002E8
    s.inSync = false ∧ s.nbUntil = 1 ∧ observed s.cfg.matrix (shiftIn s.reg (lastBit 0x01002E8)) = some .b ∧
    sequenceFound ⟨s.pulses.pulse1, s.pulses.pulse2, s.pulses.pulse3, some ⟨.b, s.bitcount + 1⟩⟩ = false := by decide +kernel

/-- On B, one block after A; on D, one block after C, with its emission; on C, six blocks after A. -/
theorem witness_SearchStepAcquiresSync :
    ∀ w ∈ ([(0x01002E8, .b, .a, 100, 125), (0x13510CC, .d, .c, 100, 125), (0x3838770, .c, .a, 100, 255)] :
        List (Raw × Offset × Offset × Nat × Nat)),
      let s := { searching w.1 with bitcount := w.2.2.2.2, pulses := history none none none (some (w.2.2.1, w.2.2.2.1)) }
      s.inSync = false ∧ s.nbUntil = 1 ∧ errSum s.errwin = 0 ∧
      observed s.cfg.matrix (shiftIn s.reg (lastBit w.1)) = some w.2.1 ∧
      sequenceFound ⟨s.pulses.pulse1, s.pulses.pulse2, s.pulses.pulse3, some ⟨w.2.1, s.bitcount + 1⟩⟩ = true := by
  decide +kernel

/-- A, B and C where they are expected, C′ where C is; with 45 errors in the window, the most LOSS_CHECK = every_block lets
stand. -/
theorem witness_CleanBlockIsStored :
    ∀ w ∈ ([(0x34F0B28, .a, .a), (0x01002E8, .b, .b), (0x3838770, .c, .c), (0x34F0884, .cPrime, .c)] :
        List (Raw × Offset × Offset)),
      let s := receiving w.1 w.2.2 45
      s.inSync = true ∧ s.nbUntil = 1 ∧ s.expected ≠ .d ∧ (w.2.1 = s.expected ∨ s.expected = .c ∧ w.2.1 = .cPrime) ∧
      observed s.cfg.matrix (shiftIn s.reg (lastBit w.1)) = some w.2.1 ∧
      ¬ (s.cfg.lossCheck = .everyBlock ∧ 45 < errSum ((s.errwin ++ [false]).drop 1)) := by decide +kernel

theorem witness_CorrectedBlockIsStored : let s := receiving 0x01002F0 .b 44
    s.inSync = true ∧ s.nbUntil = 1 ∧ s.expected ≠ .d ∧
    observed s.cfg.matrix (shiftIn s.reg (lastBit 0x01002F0)) ≠ some s.expected ∧
    ¬ (s.expected = .c ∧ observed s.cfg.matrix (shiftIn s.reg (lastBit 0x01002F0)) = some .cPrime) ∧
    errLookup s.cfg.matrix (syndrome s.cfg.matrix (shiftIn s.reg (lastBit 0x01002F0))) s.expected = some 0x0000018 ∧
    ¬ (s.cfg.lossCheck = .everyBlock ∧ 45 < errSum ((s.errwin ++ [true]).drop 1)) := by decide +kernel

/-- With 44 errors in the window, so that this block makes the 45th: no loss. -/
theorem witness_UncorrectableBlockMarksItsSlot : let s := receiving 0 .b 44
    s.inSync = true ∧ s.nbUntil = 1 ∧ s.expected ≠ .d ∧ observed s.cfg.matrix (shiftIn s.reg (lastBit 0)) ≠ some s.expected ∧
    ¬ (s.expected = .c ∧ observed s.cfg.matrix (shiftIn s.reg (lastBit 0)) = some .cPrime) ∧
    errLookup s.cfg.matrix (syndrome s.cfg.matrix (shiftIn s.reg (lastBit 0))) s.expected = none ∧
    errSum ((s.errwin ++ [true]).drop 1) = 45 := by decide +kernel

/-- At the boundary of R144: with 44 errors before, sync stays; with 45, an uncorrectable block drops it and a clean one does
not; on D the group is emitted; a corrected block as the 46th error is lost under LOSS_CHECK = every_block (program P5). -/
theorem witness_SyncIsLostExactlyWhen :
    (∀ w ∈ ([(0, .b, 44), (0, .b, 45), (0, .d, 45), (0x01002E8, .b, 45), (0x0100268, .b, 45)] : List (Raw × Offset × Nat)),
      (receiving w.1 w.2.1 w.2.2).inSync = true ∧ (receiving w.1 w.2.1 w.2.2).nbUntil = 1) ∧
    read (.pushBit (lastBit 0)) (receiving 0 .b 44) (fun t => t.inSync) = some true ∧
    read (.pushBit (lastBit 0)) (receiving 0 .b 45) (fun t => t.inSync) = some false ∧
    read (.pushBit (lastBit 0x01002E8)) (receiving 0x01002E8 .b 45) (fun t => t.inSync) = some true ∧
    errLookup defaultMatrix (syndrome defaultMatrix 0x0100268) .b = some 0x0000080 ∧
    observed defaultMatrix 0x0100268 ≠ some .b := by decide +kernel

/-- A clean, a corrected and an uncorrectable block D. -/
theorem witness_BlockDEmitsTheGroup :
    (∀ w, (receiving w .d 0).inSync = true ∧ (receiving w .d 0).nbUntil = 1 ∧ (receiving w .d 0).expected = .d) ∧
    observed defaultMatrix 0x13510CC = some .d ∧ observed defaultMatrix 0x32954DE ≠ some .d ∧
    errLookup defaultMatrix (syndrome defaultMatrix 0x32954DE) .d = some 0x2000000 ∧ observed defaultMatrix 0 ≠ some .d ∧
    errLookup defaultMatrix (syndrome defaultMatrix 0) .d = none := by
  refine ⟨fun _ => ⟨rfl, rfl, rfl⟩, ?_⟩
  decide +kernel

theorem witness_LossAndEmissionInOneCommand : ∃ s : State, s.Inv ∧ s.inSync = true ∧ s.nbUntil = 1 ∧ s.expected = .d ∧
    observed s.cfg.matrix (shiftIn s.reg false) ≠ some .d ∧
    errLookup s.cfg.matrix (syndrome s.cfg.matrix (shiftIn s.reg false)) .d = none ∧
    45 < errSum ((s.errwin ++ [true]).drop 1) :=
  ⟨receiving 0 .d 45, synced_inv _ _ _ _ (by decide) (by decide) (by decide), rfl, rfl, rfl, by decide +kernel⟩

/-- An emission by PUSH_BIT and one by PUSH_GROUP, block 2 received and not. -/
theorem witness_EmittedGroupFields :
    read (.pushBit (lastBit 0x13510CC)) (receiving 0x13510CC .d 0) (fun t => t.out.map fun g => g.slots.slot2.isReceived) =
      some (some false) ∧
    read (.pushGroup true true true true 0xD3C2 0x0C03 0xD3C2 0x4D50) State.reset
      (fun t => t.out.map fun g => g.slots.slot2.isReceived) = some (some true) := by decide +kernel

theorem witness_BlerIsAMovingSum : [Slots.fresh] ≠ [] := by simp

theorem witness_BlerPercentRoundsHalfUp : (1 ≤ 12 ∧ 48 ≤ 4 * 12) ∧ (1 ≤ 1 ∧ 0 ≤ 4 * 1) ∧
    State.reset.cfg.blerN = 12 ∧ State.reset.blerwin.sum = 0 := by decide

theorem witness_StatusPortsShowTheState : ∃ s : State, s.Inv ∧ 1 ≤ s.cfg.blerN ∧ s.cfg.blerN ≤ 63 :=
  ⟨synced 0 .b 45 26, synced_inv _ _ _ _ (by decide) (by decide) (by decide), by decide, by decide⟩

/-- For the statements about every admissible matrix, ObservedOffsetOfABlock, ErrorTableHoldsEveryBurst,
LookupReadsTheErrorTable and ConstantStreamsNeverSync. -/
theorem witness_Admissible : Admissible defaultMatrix ∧ Admissible remainderMatrix ∧ remainderMatrix ≠ defaultMatrix :=
  ⟨defaultMatrix_admissible, remainderMatrix_admissible, by decide⟩

theorem witness_CodewordsAreTheMultiplesOfG : isCodeword 0x00005B9 = true ∧ (0x00005B9 : Raw) ≠ 0 := by decide +kernel

theorem witness_BurstsAreRepaired : Admissible defaultMatrix ∧ (∃ k < 26, (0x2000000 : Raw) = (1 : Raw) <<< k) ∧
    ∃ k < 25, (0x3000000 : Raw) = (3 : Raw) <<< k :=
  ⟨defaultMatrix_admissible, ⟨25, by decide, by decide⟩, 24, by decide, by decide⟩

theorem witness_CorrectionYieldsABlock : Admissible defaultMatrix ∧ (correct defaultMatrix 0x01002F0 .b).1 = true ∧
    (correct defaultMatrix 0x34F0B2D .a).1 = false := ⟨defaultMatrix_admissible, by decide +kernel⟩

theorem witness_FalseCorrectionsOfCleanBlocks : Admissible defaultMatrix ∧ Offset.a ≠ Offset.c ∧
    (Offset.a, Offset.c) ∉ [(Offset.a, Offset.b), (.b, .a), (.a, .d), (.d, .a), (.b, .cPrime), (.cPrime, .b), (.c, .d), (.d, .c)] ∧
    ∃ k < 26, (1 : Raw) = (1 : Raw) <<< k :=
  ⟨defaultMatrix_admissible, by decide, by decide, 0, by decide, by decide⟩

/-- Each of the flags set and cleared by some command; a command that emits and one that does not, and RESET. -/
theorem witness_FlagsChangeOnlyAsListed :
    read .disableOffsets State.reset (fun t => t.offsetsDisabled) = some true ∧
    read .reset { State.reset with offsetsDisabled := true } (fun t => t.offsetsDisabled) = some false ∧
    read (.pushGroup true true true true 0 0 0 0) State.reset (fun t => t.groupReady) = some true ∧
    read .popGroup { State.reset with groupReady := true } (fun t => t.groupReady) = some false ∧
    read (.pushBit (lastBit 0x01002E8)) { searching 0x01002E8 with pulses := history none none none (some (.a, 100)) }
      (fun t => t.inSync) = some true ∧
    read (.pushBit false) (receiving 0 .b 45) (fun t => t.inSync) = some false ∧
    read (.pushGroup true true true true 0xD3C2 0x0400 0xE0E1 0x4D44) State.reset (fun t => (t.out.isNone, t.ready.hasType)) =
      some (false, true) ∧
    read .popGroup State.reset (fun t => t.out) = some none ∧ read .reset State.reset (fun t => t.out) = some none := by
  decide +kernel

/-- The slot flags of `cur` set, in sync and on acquisition, and cleared by an emission and by a clean block on acquisition; the
two ways a group is emitted; and a command that emits none. -/
theorem witness_SlotFlagsChangeOnlyAsListed :
    let errored : Slots := ⟨lostSlot, lostSlot, lostSlot, lostSlot⟩
    let flags (t : State) (k : BlockNo) := ((getSlot t.cur k).isReceived, (getSlot t.cur k).hadErrors)
    let acquiring : State := { searching 0x01002E8 with pulses := history none none none (some (.a, 100)), cur := errored }
    read (.pushBit false) (receiving 0x01002E8 .b 0) (fun t => flags t .two) = some (true, false) ∧
    read (.pushBit false) (receiving 0 .b 0) (fun t => flags t .two) = some (false, true) ∧
    read (.pushBit false) acquiring (fun t => (flags t .two, flags t .one)) = some ((true, false), (false, false)) ∧
    read (.pushBit false) { receiving 0x13510CC .d 0 with cur := ⟨okSlot 0xD3C2 .a false, lostSlot, lostSlot, Slot.fresh⟩ }
      (fun t => (flags t .one, flags t .two, t.out.isSome)) = some ((false, false), (false, false), true) ∧
    read (.pushGroup true true true true 0 0 0 0) State.reset (fun t => t.out.isSome) = some true ∧
    read .reset (receiving 0 .b 0) (fun t => t.out) = some none ∧
    read .nop State.reset (fun t => t.out) = some none := by decide +kernel

/-- A search step that observes nothing and one that acquires; a bit inside a block; the end of a block with sync kept and with
sync lost; RESET and NOP. -/
theorem witness_ControlFlowTransitions :
    read (.pushBit false) (searching 0) (fun t => (t.inSync, t.nbUntil)) = some (false, 1) ∧
    read (.pushBit false) { searching 0x01002E8 with pulses := history none none none (some (.a, 100)) }
      (fun t => (t.inSync, t.nbUntil, t.expected)) = some (true, 26, .c) ∧
    read (.pushBit false) (synced 0 .c 0 2) (fun t => (t.inSync, t.nbUntil, t.expected)) = some (true, 1, .c) ∧
    read (.pushBit false) (receiving 0 .b 44) (fun t => (t.inSync, t.nbUntil, t.expected)) = some (true, 26, .c) ∧
    read (.pushBit false) (receiving 0 .b 45) (fun t => (t.inSync, t.nbUntil, t.expected)) = some (false, 1, .c) ∧
    errSum (searching 0).errwin = 0 ∧
    read .reset (receiving 0 .b 45) (fun t => (t.inSync, t.nbUntil, t.expected)) = some (false, 1, .a) ∧
    read .nop (receiving 0 .b 45) (fun t => (t.inSync, t.nbUntil, t.expected)) = some (true, 1, .b) := by decide +kernel

/-- A command that is neither PUSH_BIT nor RESET; a PUSH_BIT in sync and one out of sync, neither emitting. -/
theorem witness_CommandFrames :
    (∀ b, Instr.nop ≠ .pushBit b) ∧ Instr.nop ≠ .reset ∧
    read (.pushBit false) (receiving 0 .b 0) (fun t => (t.out, t.inSync)) = some (none, true) ∧
    read (.pushBit false) (searching 0) (fun t => (t.out, t.inSync)) = some (none, false) ∧ errSum (searching 0).errwin = 0 := by
  refine ⟨?_, ?_, ?_⟩
  · intro b h
    cases h
  · decide
  · decide +kernel

theorem witness_InvariantIsKept : ∃ s t : State, s.Inv ∧ step s = .next t :=
  ⟨synced 0 .d 45 1, _, synced_inv _ _ _ _ (by decide) (by decide) (by decide), rfl⟩

/-- Loss with 45 errors before the block, and the acquiring pulse in the history. -/
theorem witness_StalePulsesNeverMatch : ∃ s t : State, s.Inv ∧ exec (.pushBit false) s = .next t ∧ s.inSync = true ∧
    t.inSync = false ∧ t.pulses.pulse3 = some { offset := .b, bitcount := 59 } ∧
    t.bitcount ≤ ({ offset := .c, bitcount := 6000 } : Pulse).bitcount :=
  ⟨receiving 0 .b 45, pushBit false (clearOut (receiving 0 .b 45)), synced_inv _ _ _ _ (by decide) (by decide) (by decide),
    rfl, rfl, by decide +kernel⟩

theorem witness_EmissionsAreFarApart : ∃ s t : State, s.Inv ∧ exec (.pushBit false) s = .next t ∧ t.out ≠ none ∧
    List.replicate 26 false ≠ [] ∧ (List.replicate 26 false).length ≤ 26 :=
  ⟨receiving 0 .d 45, pushBit false (clearOut (receiving 0 .d 45)), synced_inv _ _ _ _ (by decide) (by decide) (by decide),
    rfl, by decide +kernel, by decide, by decide⟩

theorem witness_ReceptionIgnoresTelemetry : ∃ s₁ s₂ : State, s₁.decoder = s₂.decoder ∧ s₁ ≠ s₂ ∧
    s₁.groupReady ≠ s₂.groupReady ∧ s₁.offsetsDisabled ≠ s₂.offsetsDisabled :=
  ⟨State.reset, { State.reset with groupReady := true, offsetsDisabled := true }, rfl, by decide, by decide, by decide⟩

theorem witness_MatrixChoiceIsUnobservable : ∃ s t : State, Admissible s.cfg.matrix ∧ Admissible remainderMatrix ∧
    step s = .next t ∧ s.pending ≠ [] :=
  ⟨present 0x200000000000000001 (receiving 0x34F0B28 .a 0), _, defaultMatrix_admissible, remainderMatrix_admissible, rfl,
    by decide⟩

/-- For CleanGroupIsEmitted and BurstDamagedGroupIsRecovered. -/
theorem witness_CleanGroupIsEmitted : ∃ s : State, s.Inv ∧ Admissible s.cfg.matrix ∧ s.inSync = true ∧ s.nbUntil = 26 ∧
    s.expected = .a ∧ s.cfg.lossCheck = .onUncorrectable ∧
    ∀ e ∈ ([0x0000001, 0x2000000, 0x0000003, 0x3000000] : List Raw), e ∈ bursts :=
  ⟨synced 0 .a 45 26, synced_inv _ _ _ _ (by decide) (by decide) (by decide), defaultMatrix_admissible, rfl, rfl, rfl, rfl, by
    rw [← List.all_iff_forall_prop]
    decide +kernel⟩

/-- The two bursts on which the lookup hits, and one on which it misses: section 2.4's block 0x34F0885. -/
theorem witness_DamagedCPrimeBlockIsNotRecovered : Admissible defaultMatrix ∧
    (∃ k < 26, (0x0000001 : Raw) = (1 : Raw) <<< k) ∧ (∃ k < 26, (0x0100000 : Raw) = (1 : Raw) <<< k) ∧
    (∃ k < 25, (0x1800000 : Raw) = (3 : Raw) <<< k) ∧ encodeBlock 0xD3C2 .cPrime ^^^ 0x0000001 = 0x34F0885 :=
  ⟨defaultMatrix_admissible, ⟨0, by decide, by decide⟩, ⟨20, by decide, by decide⟩, ⟨23, by decide, by decide⟩,
    by decide +kernel⟩

end Sys2Proof.Tests
end

section
/-! The scope of the unit (00_scope.md): every command completes. -/

namespace Sys2Proof.Machine

/-- Settles O7: the step on a presented word is the total `exec` of the decoded command, and no command touches the words
still presented or the configuration. -/
theorem everyCommandWordCompletes : Obligations.EveryCommandWordCompletes := by
  intro s w
  have hstep : step (present w s) = .next (after (decode w) s) := by
    rw [step_present, exec_eq]
  exact ⟨after (decode w) s, hstep, after_pending (decode w) s, after_cfg (decode w) s⟩

end Sys2Proof.Machine
end

section
/-! The invariant of the state between commands (10_state.md R38): it holds after reset and every step keeps it. -/

namespace Sys2Proof.Machine

/-! ## After reset -/

theorem historyWf_empty (n : Nat) : HistoryWf PulseHistory.empty n where
  order01 := fun _ h => by cases h
  order12 := fun _ h => by cases h
  order23 := fun _ h => by cases h
  past := fun _ h => by cases h

theorem recWf_initial (cfg : Config) : RecWf (State.initial cfg).decoder :=
  recWf_search rfl rfl nofun slotsWf_fresh (Nat.zero_le _) (errSum_replicate_false _) List.length_replicate
    (historyWf_empty _)

theorem teleWf_initial (cfg : Config) : TeleWf (State.initial cfg) where
  ready := slotsWf_fresh
  blerwin := List.length_replicate
  blerEntries := by
    intro n hn
    rw [List.eq_of_mem_replicate hn]
    exact Nat.zero_le 4
  readySum := by simp [Group.fresh]
  readyErrors := Nat.zero_le 4
  out := fun _ h => by cases h

/-- Settles O47, part by part: the decoder is a searching one with an empty window and history, and the telemetry is that of
the fresh group and a window of zeros. -/
theorem invariantHoldsAtReset : Obligations.InvariantHoldsAtReset :=
  fun cfg => (inv_iff _).mpr ⟨recWf_initial cfg, teleWf_initial cfg⟩

/-! ## Every command and every step -/

/-- The invariant does not speak of the words still to be presented. -/
theorem inv_setPending {s : State} (h : s.Inv) (words : List CommandWord) : State.Inv { s with pending := words } := by
  obtain ⟨hrec, htele⟩ := (inv_iff s).mp h
  exact (inv_iff _).mpr ⟨hrec, { htele with }⟩

/-- A command that emits nothing and leaves `ready` and the BLER window keeps the telemetry well-formed. -/
theorem teleWf_of_no_emission {s t : State} (h : TeleWf s) (hcfg : t.cfg = s.cfg) (hready : t.ready = s.ready)
    (hblerwin : t.blerwin = s.blerwin) (hout : t.out = none) : TeleWf t where
  ready := hready ▸ h.ready
  blerwin := by rw [hblerwin, hcfg, h.blerwin]
  blerEntries := hblerwin ▸ h.blerEntries
  readySum := by rw [hready, hblerwin, h.readySum]
  readyErrors := hready ▸ h.readyErrors
  out := by
    intro g hg
    rw [hout] at hg
    cases hg

theorem recWf_after {i : Instr} {s : State} (h : RecWf s.decoder) : RecWf (after i s).decoder := by
  cases i with
  | pushBit b => exact recWf_pushBit (s := clearOut s) h
  | reset => exact recWf_initial s.cfg
  | nop => exact h
  | popGroup => exact h
  | pushGroup rx1 rx2 rx3 rx4 w1 w2 w3 w4 => exact h
  | disableOffsets => exact h
  | reserved6 => exact h
  | reserved7 => exact h

theorem teleWf_after {i : Instr} {s : State} (h : TeleWf s) (hcur : SlotsWf s.cur) : TeleWf (after i s) := by
  cases i with
  | pushBit b => exact teleWf_pushBit (teleWf_clearOut h) hcur
  | pushGroup rx1 rx2 rx3 rx4 w1 w2 w3 w4 => exact teleWf_emit (teleWf_clearOut h) (slotsWf_pushedSlots _ _ _ _ _ _ _ _)
  | reset => exact teleWf_of_no_emission (teleWf_initial s.cfg) rfl rfl rfl rfl
  | nop => exact teleWf_clearOut h
  | popGroup => exact teleWf_of_no_emission h rfl rfl rfl rfl
  | disableOffsets => exact teleWf_of_no_emission h rfl rfl rfl rfl
  | reserved6 => exact teleWf_clearOut h
  | reserved7 => exact teleWf_clearOut h

theorem inv_after {i : Instr} {s : State} (h : s.Inv) : (after i s).Inv := by
  obtain ⟨hrec, htele⟩ := (inv_iff s).mp h
  exact (inv_iff _).mpr ⟨recWf_after hrec, teleWf_after htele h.cur⟩

/-- Settles O48: an idle step changes nothing, and a step on a presented word is a command, of which each keeps the decoder's
part of the invariant and the telemetry's. -/
theorem invariantIsKept : Obligations.InvariantIsKept := by
  intro s t hinv hstep
  cases hp : s.pending with
  | nil =>
    rw [step_of_idle hp] at hstep
    cases hstep
    exact hinv
  | cons w rest =>
    rw [step_of_pending hp, exec_eq_next_iff] at hstep
    subst hstep
    exact inv_after (inv_setPending hinv rest)

end Sys2Proof.Machine
end

section
/-! The status ports of an invariant state (10_state.md R29). -/

namespace Sys2Proof.Machine

/-- At most 4 errors in each of BLER_N groups (R34, R165). -/
theorem blerSum_le {s : State} (h : s.Inv) : s.blerwin.sum ≤ 4 * s.cfg.blerN := by
  have hsum := List.sum_le_card_nsmul s.blerwin 4 h.blerEntries
  rw [h.blerwin, smul_eq_mul] at hsum
  omega

/-- The percentage of a window's sum is at most 100 (R166). -/
theorem blerPct_le {n sum : Nat} (hn : 1 ≤ n) (hsum : sum ≤ 4 * n) : blerPct n sum ≤ 100 := by
  have hlt : (100 * sum + 2 * n) / (4 * n) < 101 := (Nat.div_lt_iff_lt_mul (by omega)).mpr (by omega)
  unfold blerPct
  omega

theorem sr0_getLsbD (s : State) : (sr0 s).getLsbD 0 = s.inSync ∧ (sr0 s).getLsbD 1 = s.groupReady ∧
    (sr0 s).getLsbD 2 = s.offsetsDisabled := by
  unfold sr0
  cases s.inSync <;> cases s.groupReady <;> cases s.offsetsDisabled <;> decide

theorem sr1_toNat {s : State} (h : s.bitsSinceLost ≤ 2 ^ s.cfg.sinceW - 1) : (sr1 s).toNat = s.bitsSinceLost := by
  have hpos := Nat.two_pow_pos s.cfg.sinceW
  rw [sr1, BitVec.toNat_ofNat, Nat.mod_eq_of_lt (by omega)]

theorem sr2_toNat {s : State} (h : s.blerwin.sum < 2 ^ 8) : (sr2 s).toNat = s.blerwin.sum := by
  rw [sr2, if_pos h, BitVec.toNat_ofNat, Nat.mod_eq_of_lt h]

theorem sr3_toNat {s : State} (h : blerPct s.cfg.blerN s.blerwin.sum ≤ 100) :
    (sr3 s).toNat = blerPct s.cfg.blerN s.blerwin.sum := by
  rw [sr3, BitVec.toNat_ofNat, Nat.mod_eq_of_lt (by omega)]

theorem sr4_toNat {s : State} (h : s.cfg.blerN < 2 ^ 8) : (sr4 s).toNat = s.cfg.blerN := by
  rw [sr4, if_pos h, BitVec.toNat_ofNat, Nat.mod_eq_of_lt h]

/-- Settles O31: under the invariant each number fits the width of its port. -/
theorem statusPortsShowTheState : Obligations.StatusPortsShowTheState := by
  intro s hinv hlo hhi
  have hsum := blerSum_le hinv
  have hpct := blerPct_le hlo hsum
  have h3 := sr3_toNat hpct
  obtain ⟨hsync, hready, hdisabled⟩ := sr0_getLsbD s
  exact ⟨hsync, hready, hdisabled, sr1_toNat hinv.sinceBound, sr2_toNat (by omega), h3, h3 ▸ hpct, sr4_toNat (by omega), rfl,
    hinv.readySum⟩

end Sys2Proof.Machine
end

section
/-! Reception does not depend on the telemetry (10_state.md R30): each operation of PUSH_BIT computes the decoder after it from
the decoder before it. -/

namespace Sys2Proof.Machine

section SameDecoder

variable {s u : State} (h : s.decoder = u.decoder)
include h

theorem receive_decoder_congr (raw : Raw) (obs : Option Offset) : (receive raw obs s).decoder = (receive raw obs u).decoder := by
  cases s
  cases u
  cases h
  rw [receive_eq, receive_eq]
  unfold afterLoss
  dsimp only
  split <;> split <;> rfl

theorem searchStep_decoder_congr (obs : Option Offset) : (searchStep obs s).decoder = (searchStep obs u).decoder := by
  cases s
  cases u
  cases h
  cases obs with
  | none => rfl
  | some o =>
    simp only [searchStep, apply_ite State.decoder]
    rfl

/-- The search part of a block step (R132). -/
theorem searchPart_decoder_congr (obs : Option Offset) :
    (if s.inSync then s else searchStep obs s).decoder = (if u.inSync then u else searchStep obs u).decoder := by
  have hsync : s.inSync = u.inSync := congrArg Decoder.inSync h
  rw [hsync, apply_ite State.decoder, apply_ite State.decoder, searchStep_decoder_congr h, h]

/-- The reception part of a block step (R132). -/
theorem receptionPart_decoder_congr (raw : Raw) (obs : Option Offset) :
    (if s.inSync then receive raw obs s else s).decoder = (if u.inSync then receive raw obs u else u).decoder := by
  have hsync : s.inSync = u.inSync := congrArg Decoder.inSync h
  rw [hsync, apply_ite State.decoder, apply_ite State.decoder, receive_decoder_congr h, h]

theorem blockStep_decoder_congr : (blockStep s).decoder = (blockStep u).decoder := by
  have hcfg : s.cfg = u.cfg := congrArg Decoder.cfg h
  have hreg : s.reg = u.reg := congrArg Decoder.reg h
  unfold blockStep
  rw [hcfg, hreg]
  exact receptionPart_decoder_congr (searchPart_decoder_congr h _) _ _

theorem reloadCount_decoder_congr : (reloadCount s).decoder = (reloadCount u).decoder := by
  cases s
  cases u
  cases h
  rfl

theorem takeBit_decoder_congr (b : Bool) : (takeBit b s).decoder = (takeBit b u).decoder := by
  cases s
  cases u
  cases h
  rfl

theorem setNbUntil_decoder_congr (n : Nat) : State.decoder { s with nbUntil := n } = State.decoder { u with nbUntil := n } := by
  cases s
  cases u
  cases h
  rfl

theorem pushBit_decoder_congr (b : Bool) : (pushBit b s).decoder = (pushBit b u).decoder := by
  have hcount : s.nbUntil = u.nbUntil := congrArg Decoder.nbUntil h
  have htake := takeBit_decoder_congr h b
  rw [pushBit_eq, pushBit_eq, hcount, apply_ite State.decoder, apply_ite State.decoder,
    reloadCount_decoder_congr (blockStep_decoder_congr htake), setNbUntil_decoder_congr htake]

theorem after_decoder_congr (i : Instr) : (after i s).decoder = (after i u).decoder := by
  cases i with
  | pushBit b => exact pushBit_decoder_congr (s := clearOut s) (u := clearOut u) h b
  | reset => exact congrArg (fun d : Decoder => (State.initial d.cfg).decoder) h
  | nop => exact h
  | popGroup => exact h
  | pushGroup rx1 rx2 rx3 rx4 w1 w2 w3 w4 => exact h
  | disableOffsets => exact h
  | reserved6 => exact h
  | reserved7 => exact h

end SameDecoder

/-- Settles O51: the decoder after a command is computed from the decoder before it. -/
theorem receptionIgnoresTelemetry : Obligations.ReceptionIgnoresTelemetry := by
  intro i s₁ s₂ t₁ t₂ h h₁ h₂
  rw [exec_eq_next_iff] at h₁ h₂
  rw [h₁, h₂]
  exact after_decoder_congr h i

end Sys2Proof.Machine
end

section
/-! The flags of the unit (10_state.md R28): what each command can do to each of them. -/

namespace Sys2Proof.Machine

/-! ## What a command does to one flag -/

/-- Only PUSH_BIT and RESET write the decoder (R168 to R171). -/
theorem after_decoder_cases (i : Instr) (s : State) :
    (∃ b, i = .pushBit b) ∨ i = .reset ∨ (after i s).decoder = s.decoder := by
  cases i with
  | pushBit b => exact .inl ⟨b, rfl⟩
  | reset => exact .inr (.inl rfl)
  | nop => exact .inr (.inr rfl)
  | popGroup => exact .inr (.inr rfl)
  | pushGroup rx1 rx2 rx3 rx4 w1 w2 w3 w4 => exact .inr (.inr rfl)
  | disableOffsets => exact .inr (.inr rfl)
  | reserved6 => exact .inr (.inr rfl)
  | reserved7 => exact .inr (.inr rfl)

theorem after_offsetsDisabled_cases (i : Instr) (s : State) :
    (i = .disableOffsets ∧ (after i s).offsetsDisabled = true) ∨ (i = .reset ∧ (after i s).offsetsDisabled = false) ∨
    (after i s).offsetsDisabled = s.offsetsDisabled := by
  cases i with
  | disableOffsets => exact .inl ⟨rfl, rfl⟩
  | reset => exact .inr (.inl ⟨rfl, rfl⟩)
  | pushBit b =>
    obtain ⟨-, -, -, hkept, -⟩ := pushBit_frame b (clearOut s)
    exact .inr (.inr hkept)
  | nop => exact .inr (.inr rfl)
  | popGroup => exact .inr (.inr rfl)
  | pushGroup rx1 rx2 rx3 rx4 w1 w2 w3 w4 => exact .inr (.inr rfl)
  | reserved6 => exact .inr (.inr rfl)
  | reserved7 => exact .inr (.inr rfl)

theorem after_groupReady_cases (i : Instr) (s : State) :
    ((after i s).out ≠ none ∧ (after i s).groupReady = true) ∨
    ((i = .popGroup ∨ i = .reset) ∧ (after i s).groupReady = false) ∨ (after i s).groupReady = s.groupReady := by
  cases i with
  | popGroup => exact .inr (.inl ⟨.inl rfl, rfl⟩)
  | reset => exact .inr (.inl ⟨.inr rfl, rfl⟩)
  | pushGroup rx1 rx2 rx3 rx4 w1 w2 w3 w4 => exact .inl ⟨Option.some_ne_none _, rfl⟩
  | pushBit b =>
    obtain ⟨-, -, -, hkept⟩ | ⟨slots, hout, hset, -⟩ := pushBit_emission b s
    · exact .inr (.inr hkept)
    · exact .inl ⟨hout ▸ Option.some_ne_none _, hset⟩
  | nop => exact .inr (.inr rfl)
  | disableOffsets => exact .inr (.inr rfl)
  | reserved6 => exact .inr (.inr rfl)
  | reserved7 => exact .inr (.inr rfl)

/-- PUSH_BIT b observes o out of sync, and that pulse completes a sequence (R136, R138). -/
def Acquires (s : State) (b : Bool) (o : Offset) : Prop :=
  s.inSync = false ∧ observed s.cfg.matrix (shiftIn s.reg b) = some o ∧
    sequenceFound (pushPulse s.pulses o (s.bitcount + 1)) = true

/-- The window passes the threshold with the flag of one more block, and is cleared with the loss (R144). -/
def LosesSync (s t : State) : Prop :=
  t.errwin = List.replicate 50 false ∧ ∃ had, 45 < errSum ((s.errwin ++ [had]).drop 1)

theorem pushBit_inSync_cases (b : Bool) (s : State) :
    (after (.pushBit b) s).inSync = s.inSync ∨ (∃ o, Acquires s b o) ∨
    (s.inSync = true ∧ LosesSync s (after (.pushBit b) s)) := by
  obtain ⟨-, h⟩ | ⟨-, -, -, h⟩ | ⟨-, hsync, h⟩ | ⟨-, hsync, o, hobs, hseq, -⟩ := after_pushBit_cases b s
  · rw [h]
    exact .inl rfl
  · rw [h]
    cases observed s.cfg.matrix (shiftIn s.reg b) <;> exact .inl rfl
  · rw [h]
    obtain ⟨unc, had, ⟨hloss, -, hwin⟩ | ⟨-, hkept, -⟩⟩ := receive_sync_cases (shiftIn s.reg b)
      (observed s.cfg.matrix (shiftIn s.reg b)) (takeBit b (clearOut s))
    · exact .inr (.inr ⟨hsync, hwin, had, ((lossFound_iff _ _ _).mp hloss).2⟩)
    · exact .inl hkept
  · exact .inr (.inl ⟨o, hsync, hobs, hseq⟩)

theorem after_inSync_cases (i : Instr) (s : State) :
    (after i s).inSync = s.inSync ∨ (i = .reset ∧ (after i s).inSync = false) ∨
    ∃ b, i = .pushBit b ∧ ((∃ o, Acquires s b o) ∨ (s.inSync = true ∧ LosesSync s (after i s))) := by
  obtain ⟨b, rfl⟩ | rfl | hdec := after_decoder_cases i s
  · obtain hkept | hchange := pushBit_inSync_cases b s
    · exact .inl hkept
    · exact .inr (.inr ⟨b, rfl, hchange⟩)
  · exact .inr (.inl ⟨rfl, rfl⟩)
  · exact .inl (congrArg Decoder.inSync hdec)

/-! ## What sets and clears each flag -/

section Changes

variable {i : Instr} {s : State}

theorem offsetsDisabled_set (h : s.offsetsDisabled = false) (h' : (after i s).offsetsDisabled = true) :
    i = .disableOffsets := by
  obtain ⟨hi, -⟩ | ⟨-, hclear⟩ | hkept := after_offsetsDisabled_cases i s
  · exact hi
  · simp [hclear] at h'
  · simp [hkept, h] at h'

theorem offsetsDisabled_cleared (h : s.offsetsDisabled = true) (h' : (after i s).offsetsDisabled = false) : i = .reset := by
  obtain ⟨-, hset⟩ | ⟨hi, -⟩ | hkept := after_offsetsDisabled_cases i s
  · simp [hset] at h'
  · exact hi
  · simp [hkept, h] at h'

theorem groupReady_set (h : s.groupReady = false) (h' : (after i s).groupReady = true) : (after i s).out ≠ none := by
  obtain ⟨hout, -⟩ | ⟨-, hclear⟩ | hkept := after_groupReady_cases i s
  · exact hout
  · simp [hclear] at h'
  · simp [hkept, h] at h'

theorem groupReady_cleared (h : s.groupReady = true) (h' : (after i s).groupReady = false) : i = .popGroup ∨ i = .reset := by
  obtain ⟨-, hset⟩ | ⟨hi, -⟩ | hkept := after_groupReady_cases i s
  · simp [hset] at h'
  · exact hi
  · simp [hkept, h] at h'

theorem inSync_set (h : s.inSync = false) (h' : (after i s).inSync = true) : ∃ b o, i = .pushBit b ∧ Acquires s b o := by
  obtain hkept | ⟨-, hclear⟩ | ⟨b, hi, ⟨o, hacq⟩ | ⟨hsync, -⟩⟩ := after_inSync_cases i s
  · simp [hkept, h] at h'
  · simp [hclear] at h'
  · exact ⟨b, o, hi, hacq⟩
  · simp [h] at hsync

theorem inSync_cleared (h : s.inSync = true) (h' : (after i s).inSync = false) :
    i = .reset ∨ ∃ b, i = .pushBit b ∧ LosesSync s (after i s) := by
  obtain hkept | ⟨hi, -⟩ | ⟨b, hi, ⟨o, hsearch, -⟩ | ⟨-, hloss⟩⟩ := after_inSync_cases i s
  · simp [hkept, h] at h'
  · exact .inl hi
  · simp [h] at hsearch
  · exact .inr ⟨b, hi, hloss⟩

theorem ready_of_out_eq_none (hout : (after i s).out = none) (hi : i ≠ .reset) : (after i s).ready = s.ready := by
  obtain ⟨-, hkept⟩ | ⟨slots, hemit, -⟩ := after_out i s
  · exact (hkept hi).2
  · simp [hemit] at hout

theorem emitted_of_out_ne_none (hout : (after i s).out ≠ none) : Emitted s (after i s) :=
  (after_out i s).resolve_left fun h => hout h.1

end Changes

/-- Settles O44, flag by flag. -/
theorem flagsChangeOnlyAsListed : Obligations.FlagsChangeOnlyAsListed := by
  intro i s t h
  obtain rfl := exec_eq_next_iff.mp h
  refine ⟨offsetsDisabled_set, offsetsDisabled_cleared, groupReady_set, groupReady_cleared, ?_, inSync_cleared, ?_, ?_, ?_⟩
  · intro hs ht
    obtain ⟨b, o, hi, -, hobs, hseq⟩ := inSync_set hs ht
    exact ⟨b, o, hi, hobs, hseq⟩
  · intro hout hi
    rw [ready_of_out_eq_none hout hi]
    exact ⟨rfl, rfl⟩
  · rintro - rfl
    exact ⟨rfl, rfl⟩
  · intro hout
    obtain ⟨slots, -, -, -, hready⟩ := emitted_of_out_ne_none hout
    rw [hready]
    exact ⟨rfl, rfl⟩

end Sys2Proof.Machine
end

section
/-! The flags of a slot (10_state.md R28): what a command can do to one slot of the group being assembled, and which slots an
emission puts into `ready`. -/

namespace Sys2Proof.Machine

/-! ## One slot under one command -/

/-- The state in which PUSH_BIT b receives a block: the bit taken, in sync, or the sync just acquired (R132). -/
def Receives (s : State) (b : Bool) (u : State) : Prop :=
  (s.inSync = true ∧ u = takeBit b (clearOut s)) ∨ ∃ o, Acquires s b o ∧ u = acquired o (takeBit b (clearOut s))

/-- PUSH_BIT receives a block, or leaves the group being assembled alone and emits nothing (R130, R132). -/
theorem pushBit_receives_cases (b : Bool) (s : State) :
    ((after (.pushBit b) s).cur = s.cur ∧ (after (.pushBit b) s).out = none) ∨
    (s.nbUntil ≤ 1 ∧ ∃ u, Receives s b u ∧ after (.pushBit b) s =
      reloadCount (receive (shiftIn s.reg b) (observed s.cfg.matrix (shiftIn s.reg b)) u)) := by
  obtain ⟨-, h⟩ | ⟨-, -, -, h⟩ | ⟨hn, hsync, h⟩ | ⟨hn, hsync, o, hobs, hseq, h⟩ := after_pushBit_cases b s
  · rw [h]
    exact .inl ⟨rfl, rfl⟩
  · rw [h]
    cases observed s.cfg.matrix (shiftIn s.reg b) <;> exact .inl ⟨rfl, rfl⟩
  · exact .inr ⟨hn, _, .inl ⟨hsync, rfl⟩, h⟩
  · exact .inr ⟨hn, _, .inr ⟨o, ⟨hsync, hobs, hseq⟩, rfl⟩, h⟩

theorem receives_frame {s u : State} {b : Bool} (h : Receives s b u) :
    u.cfg = s.cfg ∧ u.out = none ∧ u.cur = if s.inSync then s.cur else Slots.fresh := by
  obtain ⟨hsync, rfl⟩ | ⟨o, ⟨hsync, -⟩, rfl⟩ := h <;> rw [hsync] <;> exact ⟨rfl, rfl, rfl⟩

/-- The block on which sync is acquired shows its offset, so a block in error is one received in sync. -/
theorem receives_of_obs_ne {s u : State} {b : Bool} (h : Receives s b u)
    (hne : observed s.cfg.matrix (shiftIn s.reg b) ≠ some (effectiveOffset (observed s.cfg.matrix (shiftIn s.reg b)) u.expected)) :
    s.inSync = true ∧ u = takeBit b (clearOut s) := by
  obtain hsync | ⟨o, ⟨-, hobs, -⟩, rfl⟩ := h
  · exact hsync
  · rw [hobs] at hne
    exact absurd (congrArg some (effectiveOffset_self o).symm) hne

/-- RECEIVE leaves a slot, replaces it by a fresh one with an emission, or fills it (R146, R147, R149). -/
theorem receive_slot_cases (raw : Raw) (obs : Option Offset) (u : State) (k : BlockNo) :
    getSlot (receive raw obs u).cur k = getSlot u.cur k ∨
    (getSlot (receive raw obs u).cur k = Slot.fresh ∧ (receive raw obs u).out = some (receive raw obs u).ready) ∨
    (blockNo u.expected = k ∧ FilledFrom u.cfg.matrix raw obs (effectiveOffset obs u.expected) (getSlot u.cur k)
      (getSlot (receive raw obs u).cur k)) := by
  obtain ⟨slots, hother, hfilled, ⟨-, hcur, -⟩ | ⟨-, hcur, hout, -⟩⟩ := receive_slots_cases raw obs u <;> rw [hcur]
  · by_cases hk : blockNo u.expected = k
    · subst hk
      exact .inr (.inr ⟨rfl, hfilled⟩)
    · exact .inl (hother k (Ne.symm hk))
  · exact .inr (.inl ⟨getSlot_fresh k, hout⟩)

/-- Slot k is a fresh one, by RESET, by an emission, or by the acquisition of sync. -/
def ReplacedByFresh (i : Instr) (s : State) (k : BlockNo) : Prop :=
  getSlot (after i s).cur k = Slot.fresh ∧
    (i = .reset ∨ ∃ b, i = .pushBit b ∧ ((after i s).out = some (after i s).ready ∨ ∃ o, Acquires s b o))

/-- Slot k is filled by the block that PUSH_BIT b completes, received from the state u. -/
def FilledByBlock (i : Instr) (s : State) (k : BlockNo) (b : Bool) (u : State) : Prop :=
  i = .pushBit b ∧ s.nbUntil ≤ 1 ∧ Receives s b u ∧ blockNo u.expected = k ∧
    FilledFrom s.cfg.matrix (shiftIn s.reg b) (observed s.cfg.matrix (shiftIn s.reg b))
      (effectiveOffset (observed s.cfg.matrix (shiftIn s.reg b)) u.expected) (getSlot u.cur k) (getSlot (after i s).cur k)

theorem pushBit_slot_cases (b : Bool) (s : State) (k : BlockNo) :
    getSlot (after (.pushBit b) s).cur k = getSlot s.cur k ∨ ReplacedByFresh (.pushBit b) s k ∨
    ∃ u, FilledByBlock (.pushBit b) s k b u := by
  obtain ⟨hcur, -⟩ | ⟨hn, u, hrec, h⟩ := pushBit_receives_cases b s
  · exact .inl (by rw [hcur])
  have hcfg := (receives_frame hrec).1
  obtain hkept | ⟨hfresh, hout⟩ | ⟨hk, hfilled⟩ := receive_slot_cases (shiftIn s.reg b)
    (observed s.cfg.matrix (shiftIn s.reg b)) u k
  · obtain ⟨-, rfl⟩ | ⟨o, hacq, rfl⟩ := hrec
    · exact .inl (by rw [h]; exact hkept)
    · exact .inr (.inl ⟨by rw [h]; exact hkept.trans (getSlot_fresh k), .inr ⟨b, rfl, .inr ⟨o, hacq⟩⟩⟩)
  · exact .inr (.inl ⟨by rw [h]; exact hfresh, .inr ⟨b, rfl, .inl (by rw [h]; exact hout)⟩⟩)
  · exact .inr (.inr ⟨u, rfl, hn, hrec, hk, by rw [h]; rw [hcfg] at hfilled; exact hfilled⟩)

/-- Everything a command can do to a slot of the group being assembled. -/
theorem after_slot_cases (i : Instr) (s : State) (k : BlockNo) :
    getSlot (after i s).cur k = getSlot s.cur k ∨ ReplacedByFresh i s k ∨ ∃ b u, FilledByBlock i s k b u := by
  obtain ⟨b, rfl⟩ | rfl | hdec := after_decoder_cases i s
  · obtain hkept | hfresh | hfilled := pushBit_slot_cases b s k
    · exact .inl hkept
    · exact .inr (.inl hfresh)
    · exact .inr (.inr ⟨b, hfilled⟩)
  · exact .inr (.inl ⟨getSlot_fresh k, .inl rfl⟩)
  · have hcur : (after i s).cur = s.cur := congrArg Decoder.cur hdec
    exact .inl (by rw [hcur])

/-! ## What sets and clears each flag of a slot -/

section Changes

variable {i : Instr} {s : State} {k : BlockNo}

theorem isReceived_set (h : (getSlot s.cur k).isReceived = false) (h' : (getSlot (after i s).cur k).isReceived = true) :
    ∃ b, i = .pushBit b ∧ s.nbUntil ≤ 1 ∧
      (s.inSync = true ∧ blockNo s.expected = k ∨ ∃ o, Acquires s b o ∧ blockNo o = k) := by
  obtain hkept | ⟨hfresh, -⟩ | ⟨b, u, hi, hn, ⟨hsync, rfl⟩ | ⟨o, hacq, rfl⟩, hk, -⟩ := after_slot_cases i s k
  · simp [hkept, h] at h'
  · simp [hfresh, Slot.fresh] at h'
  · exact ⟨b, hi, hn, .inl ⟨hsync, hk⟩⟩
  · exact ⟨b, hi, hn, .inr ⟨o, hacq, hk⟩⟩

theorem isReceived_cleared (h : (getSlot s.cur k).isReceived = true)
    (h' : (getSlot (after i s).cur k).isReceived = false) : ReplacedByFresh i s k := by
  obtain hkept | hfresh | ⟨b, u, -, -, hrec, -, ⟨-, hslot⟩ | ⟨-, e, -, hslot⟩ | ⟨hne, -, hslot⟩⟩ := after_slot_cases i s k
  · simp [hkept, h] at h'
  · exact hfresh
  · simp [hslot] at h'
  · simp [hslot] at h'
  · obtain ⟨-, rfl⟩ := receives_of_obs_ne hrec hne
    rw [hslot] at h'
    exact Bool.noConfusion (h.symm.trans h')

theorem hadErrors_set (h : (getSlot s.cur k).hadErrors = false) (h' : (getSlot (after i s).cur k).hadErrors = true) :
    ∃ b, i = .pushBit b ∧ s.nbUntil ≤ 1 ∧ s.inSync = true ∧ blockNo s.expected = k ∧
      observed s.cfg.matrix (shiftIn s.reg b) ≠ some s.expected ∧
      ¬ (s.expected = .c ∧ observed s.cfg.matrix (shiftIn s.reg b) = some .cPrime) := by
  obtain hkept | ⟨hfresh, -⟩ | ⟨b, u, hi, hn, hrec, hk, hfilled⟩ := after_slot_cases i s k
  · simp [hkept, h] at h'
  · simp [hfresh, Slot.fresh] at h'
  · have hne : observed s.cfg.matrix (shiftIn s.reg b) ≠
        some (effectiveOffset (observed s.cfg.matrix (shiftIn s.reg b)) u.expected) := by
      obtain ⟨-, hslot⟩ | ⟨hne, -⟩ | ⟨hne, -⟩ := hfilled
      · simp [hslot] at h'
      · exact hne
      · exact hne
    obtain ⟨hsync, rfl⟩ := receives_of_obs_ne hrec hne
    exact ⟨b, hi, hn, hsync, hk, obs_ne_of_ne_effectiveOffset hne⟩

theorem hadErrors_cleared (h : (getSlot s.cur k).hadErrors = true) (h' : (getSlot (after i s).cur k).hadErrors = false) :
    ReplacedByFresh i s k ∨ ∃ b o, i = .pushBit b ∧ observed s.cfg.matrix (shiftIn s.reg b) = some o ∧ blockNo o = k ∧
      getSlot (after i s).cur k =
        { raw := shiftIn s.reg b, data := dataOf (shiftIn s.reg b), offset := some o, isReceived := true, hadErrors := false } := by
  obtain hkept | hfresh | ⟨b, u, hi, -, -, hk, ⟨hobs, hslot⟩ | ⟨-, e, -, hslot⟩ | ⟨-, -, hslot⟩⟩ := after_slot_cases i s k
  · simp [hkept, h] at h'
  · exact .inl hfresh
  · exact .inr ⟨b, _, hi, hobs, (blockNo_effectiveOffset _ _).trans hk, hslot⟩
  · simp [hslot] at h'
  · simp [hslot] at h'

end Changes

/-! ## The slots of an emitted group -/

/-- PUSH_BIT emits the slots assembled, slot 4 as the block it completes, of offset D, leaves it (R146, R147, R149). -/
theorem pushBit_emitted_slots {b : Bool} {s : State} (hout : (after (.pushBit b) s).out ≠ none) :
    (∀ k, k ≠ .four → getSlot (after (.pushBit b) s).ready.slots k = if s.inSync then getSlot s.cur k else Slot.fresh) ∧
    ∃ before, FilledFrom s.cfg.matrix (shiftIn s.reg b) (observed s.cfg.matrix (shiftIn s.reg b)) .d before
      (after (.pushBit b) s).ready.slots.slot4 := by
  obtain ⟨-, hnone⟩ | ⟨-, u, hrec, h⟩ := pushBit_receives_cases b s
  · exact absurd hnone hout
  obtain ⟨hcfg, huout, hucur⟩ := receives_frame hrec
  obtain ⟨slots, hother, hfilled, ⟨-, -, hkept, -⟩ | ⟨hd, -, -, hready⟩⟩ := receive_slots_cases (shiftIn s.reg b)
    (observed s.cfg.matrix (shiftIn s.reg b)) u
  · rw [h] at hout
    exact absurd (hkept.trans huout) hout
  · have hfour : blockNo u.expected = .four := by
      rw [← blockNo_effectiveOffset (observed s.cfg.matrix (shiftIn s.reg b)), hd]
      rfl
    rw [h, reloadCount_ready, hready]
    rw [hd, hfour, hcfg] at hfilled
    refine ⟨fun k hk => ?_, _, hfilled⟩
    rw [hother k (hfour ▸ hk), hucur, apply_ite (getSlot · k), getSlot_fresh]

/-- Whether slot 4 of a group has errors and is received, from the block that completed the group. -/
theorem filledFrom_flags {matrix : Vector Check 26} {raw : Raw} {obs : Option Offset} {o : Offset} {before after : Slot}
    (h : FilledFrom matrix raw obs o before after) :
    (after.hadErrors = true ↔ obs ≠ some o) ∧ (obs = some o → after.isReceived = true) := by
  obtain ⟨hobs, rfl⟩ | ⟨hne, e, -, rfl⟩ | ⟨hne, -, rfl⟩ := h
  · simp [hobs]
  · simp [hne]
  · simp [hne]

theorem emitted_slots {i : Instr} {s : State} (hout : (after i s).out ≠ none) :
    (∃ rx1 rx2 rx3 rx4 w1 w2 w3 w4, i = .pushGroup rx1 rx2 rx3 rx4 w1 w2 w3 w4 ∧
      (after i s).ready.slots = pushedSlots rx1 rx2 rx3 rx4 w1 w2 w3 w4) ∨ ∃ b, i = .pushBit b := by
  cases i with
  | pushBit b => exact .inr ⟨b, rfl⟩
  | pushGroup rx1 rx2 rx3 rx4 w1 w2 w3 w4 => exact .inl ⟨rx1, rx2, rx3, rx4, w1, w2, w3, w4, rfl, rfl⟩
  | nop => exact absurd rfl hout
  | popGroup => exact absurd rfl hout
  | disableOffsets => exact absurd rfl hout
  | reset => exact absurd rfl hout
  | reserved6 => exact absurd rfl hout
  | reserved7 => exact absurd rfl hout

/-- Settles O57: the flags of a slot by what a command can do to a slot, those of `ready` by what an emission loads. -/
theorem slotFlagsChangeOnlyAsListed : Obligations.SlotFlagsChangeOnlyAsListed := by
  intro i s t h
  obtain rfl := exec_eq_next_iff.mp h
  refine ⟨fun _ => isReceived_set, fun _ => isReceived_cleared, fun _ => hadErrors_set, fun _ => hadErrors_cleared,
    ?_, ?_, ?_⟩
  · intro hout hi
    rw [ready_of_out_eq_none hout hi]
  · rintro - rfl
    rfl
  · intro hout
    obtain hgroup | ⟨b, rfl⟩ := emitted_slots hout
    · exact .inl hgroup
    · obtain ⟨hslots, before, hfilled⟩ := pushBit_emitted_slots hout
      obtain ⟨herrors, hreceived⟩ := filledFrom_flags hfilled
      exact .inr ⟨b, rfl, hslots, herrors, hreceived⟩

end Sys2Proof.Machine
end

section
/-! Runs of PUSH_BIT over a whole block (20_memory.md R50). -/

namespace Sys2Proof.Machine

/-- Settles O15: a run of PUSH_BIT shifts its bits in and counts them, whatever the block steps on the way do, and 26 bits
leave nothing of the earlier register. -/
theorem pushedBlockFillsTheRegister : Obligations.PushedBlockFillsTheRegister := by
  intro s r
  obtain ⟨hreg, hcount, -⟩ := execAll_pushBit_reg (bitsMsbFirst r) s
  rw [foldl_shiftIn_block] at hreg
  rw [bitsMsbFirst_length] at hcount
  exact ⟨hreg, hcount⟩

end Sys2Proof.Machine
end

section
/-! The command word (30_encoding.md R71, R86): decoder and encoder, row by row of the opcode table. -/

namespace Sys2Proof

/-! ## The rows of the decoder -/

theorem opField_cases (w : CommandWord) : opField w = 0b000 ∨ opField w = 0b001 ∨ opField w = 0b010 ∨ opField w = 0b011 ∨
    opField w = 0b100 ∨ opField w = 0b101 ∨ opField w = 0b110 ∨ opField w = 0b111 := by
  generalize opField w = op
  revert op
  decide

/-- The row of a known opcode; for a literal one the right side computes to the row's command. -/
theorem decode_of_opField {w : CommandWord} {op : BitVec 3} (h : opField w = op) :
    decode w = decodeBits (op.getLsbD 2) (op.getLsbD 1) (op.getLsbD 0) w := by
  subst h
  rw [decode_eq, opField_getLsbD w 2 (by decide), opField_getLsbD w 1 (by decide), opField_getLsbD w 0 (by decide)]

/-! ## Words cut into fields -/

theorem append_eq_append_iff {m n : Nat} {x x' : BitVec m} {y y' : BitVec n} :
    x ++ y = x' ++ y' ↔ x = x' ∧ y = y' := by
  constructor
  · intro h
    have hhi := congrArg (BitVec.extractLsb' n m) h
    have hlo := congrArg (BitVec.extractLsb' 0 n) h
    exact ⟨by simpa only [BitVec.extractLsb'_append_eq_left] using hhi,
      by simpa only [BitVec.extractLsb'_append_eq_right] using hlo⟩
  · rintro ⟨rfl, rfl⟩
    rfl

theorem ofBool_getLsbD {n : Nat} (w : BitVec n) (k : Nat) : BitVec.ofBool (w.getLsbD k) = w.extractLsb' k 1 := by
  apply BitVec.eq_of_getLsbD_eq
  intro i hi
  obtain rfl : i = 0 := by omega
  simp

theorem word_eq_opcode_append (w : CommandWord) : w = opField w ++ w.extractLsb' 0 69 := by
  simp only [opField, BitVec.extractLsb'_append_extractLsb'_eq_extractLsb']
  exact BitVec.extractLsb'_eq_self.symm

theorem word_eq_pushBit_append (w : CommandWord) : w = opField w ++ w.extractLsb' 1 68 ++ BitVec.ofBool (bField w) := by
  simp only [opField, bField, ofBool_getLsbD, BitVec.extractLsb'_append_extractLsb'_eq_extractLsb']
  exact BitVec.extractLsb'_eq_self.symm

/-- The word with this opcode, this bit 68, and the fields of PUSH_GROUP below (R71). -/
def pushGroupWord (op : BitVec 3) (bit68 : BitVec 1) (rx1 rx2 rx3 rx4 : Bool) (w1 w2 w3 w4 : Data) : CommandWord :=
  op ++ bit68 ++ BitVec.ofBool rx1 ++ BitVec.ofBool rx2 ++ BitVec.ofBool rx3 ++ BitVec.ofBool rx4 ++ w1 ++ w2 ++ w3 ++ w4

theorem word_eq_pushGroupWord (w : CommandWord) : w = pushGroupWord (opField w) (w.extractLsb' 68 1) (rx1Field w)
    (rx2Field w) (rx3Field w) (rx4Field w) (w1Field w) (w2Field w) (w3Field w) (w4Field w) := by
  simp only [pushGroupWord, opField, rx1Field, rx2Field, rx3Field, rx4Field, w1Field, w2Field, w3Field, w4Field,
    ofBool_getLsbD, BitVec.extractLsb'_append_extractLsb'_eq_extractLsb']
  exact BitVec.extractLsb'_eq_self.symm

/-! ## Words under the masks of the table -/

/-- The mask of a command without fields keeps the opcode (R71). -/
theorem and_opcodeMask_eq_iff {w : CommandWord} {op : BitVec 3} :
    w &&& 0xE00000000000000000 = op ++ noFields ↔ opField w = op := by
  have hmask : (0xE00000000000000000 : CommandWord) = BitVec.allOnes 3 ++ 0#69 := rfl
  conv_lhs => rw [hmask, word_eq_opcode_append w, BitVec.and_append, BitVec.and_allOnes, BitVec.and_zero]
  exact append_eq_append_iff.trans (and_iff_left rfl)

/-- The mask of PUSH_BIT keeps the opcode and bit 0 (R71). -/
theorem and_pushBitMask_eq_iff {w : CommandWord} {op : BitVec 3} {b : Bool} :
    w &&& 0xE00000000000000001 = op ++ (0 : BitVec 68) ++ BitVec.ofBool b ↔ opField w = op ∧ bField w = b := by
  have hmask : (0xE00000000000000001 : CommandWord) = BitVec.allOnes 3 ++ 0#68 ++ BitVec.allOnes 1 := rfl
  conv_lhs =>
    rw [hmask, word_eq_pushBit_append w, BitVec.and_append, BitVec.and_append, BitVec.and_allOnes, BitVec.and_allOnes,
      BitVec.and_zero]
  rw [append_eq_append_iff, append_eq_append_iff, BitVec.ofBool_eq_iff_eq]
  exact and_congr_left fun _ => and_iff_left rfl

/-- The mask of PUSH_GROUP clears bit 68 and nothing else (R71). -/
theorem pushGroupWord_and_mask (op : BitVec 3) (bit68 : BitVec 1) (rx1 rx2 rx3 rx4 : Bool) (w1 w2 w3 w4 : Data) :
    pushGroupWord op bit68 rx1 rx2 rx3 rx4 w1 w2 w3 w4 &&& 0xEFFFFFFFFFFFFFFFFF =
      pushGroupWord op 0 rx1 rx2 rx3 rx4 w1 w2 w3 w4 := by
  have hmask : (0xEFFFFFFFFFFFFFFFFF : CommandWord) = BitVec.allOnes 3 ++ 0#1 ++ BitVec.allOnes 1 ++ BitVec.allOnes 1 ++
      BitVec.allOnes 1 ++ BitVec.allOnes 1 ++ BitVec.allOnes 16 ++ BitVec.allOnes 16 ++ BitVec.allOnes 16 ++
      BitVec.allOnes 16 := rfl
  rw [hmask, pushGroupWord, BitVec.and_append]
  simp only [BitVec.and_append, BitVec.and_allOnes, BitVec.and_zero]
  rfl

theorem and_pushGroupMask_eq_iff {w : CommandWord} {op : BitVec 3} {rx1 rx2 rx3 rx4 : Bool} {w1 w2 w3 w4 : Data} :
    w &&& 0xEFFFFFFFFFFFFFFFFF = pushGroupWord op 0 rx1 rx2 rx3 rx4 w1 w2 w3 w4 ↔
      opField w = op ∧ rx1Field w = rx1 ∧ rx2Field w = rx2 ∧ rx3Field w = rx3 ∧ rx4Field w = rx4 ∧
        w1Field w = w1 ∧ w2Field w = w2 ∧ w3Field w = w3 ∧ w4Field w = w4 := by
  conv_lhs => rw [word_eq_pushGroupWord w, pushGroupWord_and_mask, pushGroupWord, pushGroupWord, append_eq_append_iff]
  simp only [append_eq_append_iff, BitVec.ofBool_eq_iff_eq, and_assoc, true_and]

/-! ## Decoder and encoder -/

theorem and_usedBits_decode (w : CommandWord) : w &&& usedBits (decode w) = encode (decode w) := by
  obtain h | h | h | h | h | h | h | h := opField_cases w <;> rw [decode_of_opField h]
  · exact and_opcodeMask_eq_iff.mpr h
  · exact and_pushBitMask_eq_iff.mpr ⟨h, rfl⟩
  · exact and_opcodeMask_eq_iff.mpr h
  · exact and_pushGroupMask_eq_iff.mpr ⟨h, rfl, rfl, rfl, rfl, rfl, rfl, rfl, rfl⟩
  · exact and_opcodeMask_eq_iff.mpr h
  · exact and_opcodeMask_eq_iff.mpr h
  · exact and_opcodeMask_eq_iff.mpr h
  · exact and_opcodeMask_eq_iff.mpr h

theorem decode_of_and_usedBits {i : Instr} {w : CommandWord} (h : w &&& usedBits i = encode i) : decode w = i := by
  cases i with
  | pushBit b =>
    obtain ⟨hop, rfl⟩ := and_pushBitMask_eq_iff.mp h
    exact decode_of_opField hop
  | pushGroup rx1 rx2 rx3 rx4 w1 w2 w3 w4 =>
    obtain ⟨hop, rfl, rfl, rfl, rfl, rfl, rfl, rfl, rfl⟩ := and_pushGroupMask_eq_iff.mp h
    exact decode_of_opField hop
  | nop => exact decode_of_opField (and_opcodeMask_eq_iff.mp h)
  | popGroup => exact decode_of_opField (and_opcodeMask_eq_iff.mp h)
  | disableOffsets => exact decode_of_opField (and_opcodeMask_eq_iff.mp h)
  | reset => exact decode_of_opField (and_opcodeMask_eq_iff.mp h)
  | reserved6 => exact decode_of_opField (and_opcodeMask_eq_iff.mp h)
  | reserved7 => exact decode_of_opField (and_opcodeMask_eq_iff.mp h)

theorem decode_eq_iff (i : Instr) (w : CommandWord) : decode w = i ↔ w &&& usedBits i = encode i := by
  constructor
  · rintro rfl
    exact and_usedBits_decode w
  · exact decode_of_and_usedBits

/-- The encoder writes 0 into every ignored bit (R86). -/
theorem encode_and_usedBits (i : Instr) : encode i &&& usedBits i = encode i := by
  cases i with
  | pushBit b => cases b <;> rfl
  | pushGroup rx1 rx2 rx3 rx4 w1 w2 w3 w4 => exact pushGroupWord_and_mask ..
  | nop => rfl
  | popGroup => rfl
  | disableOffsets => rfl
  | reset => rfl
  | reserved6 => rfl
  | reserved7 => rfl

theorem decode_encode (i : Instr) : decode (encode i) = i := decode_of_and_usedBits (encode_and_usedBits i)

/-- Settles O2: under the mask of its used bits a word is its fields alone, and those of an encoding are the command's. -/
theorem decodeAndEncodeAgree : Obligations.DecodeAndEncodeAgree := ⟨decode_encode, decode_eq_iff⟩

/-- A word matches the row of its opcode and decodes to that row's command (R71). -/
theorem row_of_opField {w : CommandWord} {op : BitVec 3} (h : opField w = op) :
    w &&& 0xE00000000000000000 = op ++ noFields ∧
      decode w = decodeBits (op.getLsbD 2) (op.getLsbD 1) (op.getLsbD 0) w :=
  ⟨and_opcodeMask_eq_iff.mpr h, decode_of_opField h⟩

/-- Settles O1: one row per value of the opcode. -/
theorem decodeReadsTheCommandTable : Obligations.DecodeReadsTheCommandTable := by
  intro w
  obtain h | h | h | h | h | h | h | h := opField_cases w
  · exact .inl (row_of_opField h)
  · exact .inr (.inl (row_of_opField h))
  · exact .inr (.inr (.inl (row_of_opField h)))
  · exact .inr (.inr (.inr (.inl (row_of_opField h))))
  · exact .inr (.inr (.inr (.inr (.inl (row_of_opField h)))))
  · exact .inr (.inr (.inr (.inr (.inr (.inl (row_of_opField h))))))
  · exact .inr (.inr (.inr (.inr (.inr (.inr (.inl (row_of_opField h)))))))
  · exact .inr (.inr (.inr (.inr (.inr (.inr (.inr (row_of_opField h)))))))

/-- Settles O3: the decoder computes on the nine words. -/
theorem listedWordsDecode : Obligations.ListedWordsDecode := by
  unfold Obligations.ListedWordsDecode
  decide

end Sys2Proof
end

section
/-! The lines of a command sequence (30_encoding.md R86, R87): what they expand to, and the words they assemble to. -/

namespace Sys2Proof.Machine

theorem pushBitsCommands_length {n : Nat} (v : BitVec n) : (pushBitsCommands v).length = n := by
  rw [pushBitsCommands, List.length_map, bitsMsbFirst_length]

theorem pushBitsCommands_getElem? {n : Nat} (v : BitVec n) {k : Nat} (hk : k < n) :
    (pushBitsCommands v)[k]? = some (.pushBit (v.getLsbD (n - 1 - k))) := by
  simp [pushBitsCommands, bitsMsbFirst, hk]

/-- Settles O4: PUSH_BITS by the list of its bits; the others are PUSH_BITS of the block they name. -/
theorem pseudoCommandsExpand : Obligations.PseudoCommandsExpand :=
  ⟨fun _ v => ⟨pushBitsCommands_length v, fun _ hk => pushBitsCommands_getElem? v hk⟩, fun _ => rfl, fun _ _ => rfl,
    fun _ _ _ => rfl⟩

theorem assemble_append (first rest : List AsmLine) : assemble (first ++ rest) = assemble first ++ assemble rest := by
  rw [assemble, List.flatMap_append, List.map_append]
  rfl

/-- The flags of a PUSH_GROUP line, block 1's first, are bits 67 to 64 of its word (R86). -/
theorem pushGroup_flags_append (rx : BitVec 4) : (0b011 : BitVec 3) ++ (0 : BitVec 1) ++ BitVec.ofBool (rx.getLsbD 3) ++
    BitVec.ofBool (rx.getLsbD 2) ++ BitVec.ofBool (rx.getLsbD 1) ++ BitVec.ofBool (rx.getLsbD 0) =
      (0b011 : BitVec 3) ++ (0 : BitVec 1) ++ rx := by
  revert rx
  decide

theorem assemble_pushGroup (w1 w2 w3 w4 : Data) (rx : BitVec 4) :
    assemble [.pushGroup w1 w2 w3 w4 rx] = [(0b011 : BitVec 3) ++ (0 : BitVec 1) ++ rx ++ w1 ++ w2 ++ w3 ++ w4] := by
  rw [← pushGroup_flags_append]
  rfl

/-- Settles O5: a sequence assembles line by line, and a line without pseudo-commands to its encoding. -/
theorem linesAssembleToWords : Obligations.LinesAssembleToWords :=
  ⟨assemble_append, rfl, fun _ => rfl, rfl, assemble_pushGroup, rfl, rfl, rfl, rfl⟩

end Sys2Proof.Machine
end

section
/-! The step on a presented word (30_encoding.md R70). -/

namespace Sys2Proof.Machine

/-- Settles O6: by what `fetch` answers. -/
theorem stepRunsTheDecodedCommand : Obligations.StepRunsTheDecodedCommand :=
  ⟨fun _ _ _ => step_of_pending, fun _ => step_of_idle⟩

end Sys2Proof.Machine
end

section
/-! The offsets (30_encoding.md R74 to R76, 40_code_functions.md R110). -/

namespace Sys2Proof.Machine

theorem offsetCode_le (o : Option Offset) : (offsetCode o).toNat ≤ 5 := by
  obtain _ | o := o
  · decide
  · cases o <;> decide

/-- Settles O43: the tables read entry by entry. -/
theorem offsetTables : Obligations.OffsetTables :=
  ⟨rfl, rfl, rfl, rfl, rfl, rfl, offsetCode_le, rfl, rfl, rfl, rfl, rfl, rfl, rfl, rfl, rfl, rfl, rfl, rfl, rfl, rfl, rfl⟩

end Sys2Proof.Machine
end

section
/-! The record of an emitted group (30_encoding.md R79, 42_group_bler_commands.md R161, R162) and its packed layout
(30_encoding.md R80). -/

namespace Sys2Proof.Machine

/-! ## The derived fields -/

theorem typeFields_received {slots : Slots} (h : slots.slot2.isReceived = true) :
    typeNumberOf slots = slots.slot2.data.extractLsb' 12 4 ∧ typeVersionOf slots = slots.slot2.data.getLsbD 11 := by
  simp [typeNumberOf, typeVersionOf, h]

theorem typeFields_missing {slots : Slots} (h : slots.slot2.isReceived = false) :
    typeNumberOf slots = 0 ∧ typeVersionOf slots = false := by
  simp [typeNumberOf, typeVersionOf, h]

theorem thirdIsCPrime_iff (slots : Slots) :
    thirdIsCPrime slots = true ↔ slots.slot3.isReceived = true ∧ slots.slot3.offset = some .cPrime := by
  simp [thirdIsCPrime]

theorem hasTypeOf_iff (offsetsDisabled : Bool) (slots : Slots) : hasTypeOf offsetsDisabled slots = true ↔
    slots.slot2.isReceived = true ∧ (typeVersionOf slots = false ∨ offsetsDisabled = true ∨
      (slots.slot3.isReceived = true ∧ slots.slot3.offset = some .cPrime)) := by
  rw [← thirdIsCPrime_iff]
  simp [hasTypeOf, or_assoc]

theorem slotErrored_iff (sl : Slot) : slotErrored sl = true ↔ sl.isReceived = false ∨ sl.hadErrors = true := by
  simp [slotErrored]

theorem nErrOf_eq_zero_iff (slots : Slots) : nErrOf slots = 0 ↔ ¬ slotErrored slots.slot1 = true ∧
    ¬ slotErrored slots.slot2 = true ∧ ¬ slotErrored slots.slot3 = true ∧ ¬ slotErrored slots.slot4 = true := by
  simp [nErrOf, and_assoc]

/-- Settles O26: whatever was emitted is the record of some slots, and the record's fields are functions of them. -/
theorem emittedGroupFields : Obligations.EmittedGroupFields := by
  intro i s t g h hg
  obtain rfl := exec_eq_next_iff.mp h
  obtain ⟨slots, hout, hready, hwindow, hrecord⟩ := emitted_of_out_ne_none (by rw [hg]; simp)
  obtain rfl : g = (after i s).ready := Option.some.inj (hg.symm.trans hout)
  obtain ⟨-, hport, -⟩ := sr0_getLsbD (after i s)
  have hzero := nErrOf_eq_zero_iff slots
  simp only [slotErrored_iff] at hzero
  refine ⟨rfl, hready, rfl, hport.trans hready, ?_⟩
  rw [hrecord]
  exact ⟨typeFields_received, typeFields_missing, hasTypeOf_iff _ _, rfl, nErrOf_le _, hzero, rfl, hwindow⟩

/-! ## The packed layout -/

theorem slotBits_eq_append (p : BitVec 47) : p = BitVec.ofBool (p.getLsbD 46) ++ BitVec.ofBool (p.getLsbD 45) ++
    p.extractLsb' 42 3 ++ p.extractLsb' 26 16 ++ p.extractLsb' 0 26 := by
  simp only [ofBool_getLsbD, BitVec.extractLsb'_append_extractLsb'_eq_extractLsb']
  exact BitVec.extractLsb'_eq_self.symm

theorem groupBits_eq_append (p : BitVec 204) : p = p.extractLsb' 198 6 ++ p.extractLsb' 195 3 ++
    BitVec.ofBool (p.getLsbD 194) ++ BitVec.ofBool (p.getLsbD 193) ++ BitVec.ofBool (p.getLsbD 192) ++ p.extractLsb' 188 4 ++
    p.extractLsb' 141 47 ++ p.extractLsb' 94 47 ++ p.extractLsb' 47 47 ++ p.extractLsb' 0 47 := by
  simp only [ofBool_getLsbD, BitVec.extractLsb'_append_extractLsb'_eq_extractLsb']
  exact BitVec.extractLsb'_eq_self.symm

theorem packSlot_fields (sl : Slot) : (packSlot sl).extractLsb' 0 26 = sl.raw ∧ (packSlot sl).extractLsb' 26 16 = sl.data ∧
    (packSlot sl).extractLsb' 42 3 = offsetCode sl.offset ∧ (packSlot sl).getLsbD 45 = sl.isReceived ∧
    (packSlot sl).getLsbD 46 = sl.hadErrors := by
  have h := slotBits_eq_append (packSlot sl)
  conv at h => lhs; rw [packSlot]
  rw [append_eq_append_iff] at h
  simp only [append_eq_append_iff, BitVec.ofBool_eq_iff_eq] at h
  obtain ⟨⟨⟨⟨herrors, hreceived⟩, hoffset⟩, hdata⟩, hraw⟩ := h
  exact ⟨hraw.symm, hdata.symm, hoffset.symm, hreceived.symm, herrors.symm⟩

/-- Settles O32: the packed group and the packed slot, cut at the bits of R80. -/
theorem packedGroupLayout : Obligations.PackedGroupLayout := by
  intro g
  have h := groupBits_eq_append (packGroup g)
  conv at h => lhs; rw [packGroup]
  rw [append_eq_append_iff] at h
  simp only [append_eq_append_iff, BitVec.ofBool_eq_iff_eq] at h
  obtain ⟨⟨⟨⟨⟨⟨⟨⟨⟨hsum, herr⟩, hoffsets⟩, htype⟩, hversion⟩, hnumber⟩, h4⟩, h3⟩, h2⟩, h1⟩ := h
  exact ⟨h1.symm, h2.symm, h3.symm, h4.symm, hnumber.symm, hversion.symm, htype.symm, hoffsets.symm, herr.symm, hsum.symm,
    packSlot_fields⟩

end Sys2Proof.Machine
end

section
/-! The choice among admissible matrices (40_code_functions.md R102): every operation of the unit, on the same state with the
other matrix, gives the same result with the other matrix. -/

namespace Sys2Proof.Machine

/-! ## Operations that read no syndrome -/

theorem searchStep_withMatrix (obs : Option Offset) (s : State) (matrix : Vector Check 26) :
    searchStep obs (s.withMatrix matrix) = (searchStep obs s).withMatrix matrix := by
  cases obs with
  | none => rfl
  | some o =>
    simp only [searchStep, apply_ite (State.withMatrix · matrix)]
    rfl

/-- The search part of a block step (R132). -/
theorem searchPart_withMatrix (obs : Option Offset) (s : State) (matrix : Vector Check 26) :
    (if (s.withMatrix matrix).inSync then s.withMatrix matrix else searchStep obs (s.withMatrix matrix)) =
      (if s.inSync then s else searchStep obs s).withMatrix matrix := by
  rw [searchStep_withMatrix, apply_ite (State.withMatrix · matrix)]
  rfl

theorem afterLoss_withMatrix (uncorrectable had : Bool) (s : State) (matrix : Vector Check 26) :
    afterLoss uncorrectable had (s.withMatrix matrix) = (afterLoss uncorrectable had s).withMatrix matrix := by
  rw [afterLoss, afterLoss, apply_ite (State.withMatrix · matrix)]
  rfl

theorem closeBlock_withMatrix (slots : Slots) (o : Offset) (s : State) (matrix : Vector Check 26) :
    closeBlock slots o (s.withMatrix matrix) = (closeBlock slots o s).withMatrix matrix := by
  rw [closeBlock, closeBlock, apply_ite (State.withMatrix · matrix)]
  rfl

/-! ## Operations that read a syndrome -/

section TwoMatrices

variable {s : State} {matrix : Vector Check 26} (hs : Admissible s.cfg.matrix) (hm : Admissible matrix)
include hs hm

theorem framedBlock_withMatrix (raw : Raw) (o : Offset) (had : Bool) :
    framedBlock (s.withMatrix matrix).cfg raw o had = framedBlock s.cfg raw o had := by
  cases had with
  | false => rfl
  | true =>
    have hcorrect : correct (s.withMatrix matrix).cfg.matrix raw o = correct s.cfg.matrix raw o :=
      correct_eq_correct hm hs raw o
    rw [framedBlock_errored, framedBlock_errored, hcorrect]

theorem receive_withMatrix (raw : Raw) (obs : Option Offset) :
    receive raw obs (s.withMatrix matrix) = (receive raw obs s).withMatrix matrix := by
  rw [receive_eq_closeBlock rfl rfl (framedBlock_withMatrix hs hm raw _ _), afterLoss_withMatrix, closeBlock_withMatrix,
    receive_eq_closeBlock rfl rfl rfl]
  rfl

theorem blockStep_withMatrix : blockStep (s.withMatrix matrix) = (blockStep s).withMatrix matrix := by
  have hobs : observed (s.withMatrix matrix).cfg.matrix (s.withMatrix matrix).reg = observed s.cfg.matrix s.reg :=
    observed_eq_observed hm hs s.reg
  unfold blockStep
  dsimp only
  rw [hobs, searchPart_withMatrix]
  have hcfg : Admissible (if s.inSync then s else searchStep (observed s.cfg.matrix s.reg) s).cfg.matrix := by
    split
    · exact hs
    · rw [(searchStep_frame _ s).1]
      exact hs
  generalize (if s.inSync then s else searchStep (observed s.cfg.matrix s.reg) s) = t at hcfg ⊢
  rw [receive_withMatrix hcfg hm, apply_ite (State.withMatrix · matrix)]
  rfl

theorem pushBit_withMatrix (b : Bool) : pushBit b (s.withMatrix matrix) = (pushBit b s).withMatrix matrix := by
  have hblock : blockStep (takeBit b (s.withMatrix matrix)) = (blockStep (takeBit b s)).withMatrix matrix :=
    blockStep_withMatrix (s := takeBit b s) hs hm
  rw [pushBit_eq, pushBit_eq, hblock, apply_ite (State.withMatrix · matrix)]
  rfl

theorem after_withMatrix (i : Instr) : after i (s.withMatrix matrix) = (after i s).withMatrix matrix := by
  cases i with
  | pushBit b => exact pushBit_withMatrix (s := clearOut s) hs hm b
  | nop => rfl
  | popGroup => rfl
  | pushGroup rx1 rx2 rx3 rx4 w1 w2 w3 w4 => rfl
  | disableOffsets => rfl
  | reset => rfl
  | reserved6 => rfl
  | reserved7 => rfl

end TwoMatrices

/-- Settles O52: two admissible matrices observe the same offset and correct alike, so the choice passes through every
operation of the unit. -/
theorem matrixChoiceIsUnobservable : Obligations.MatrixChoiceIsUnobservable := by
  intro s t matrix hs hm hstep
  cases hp : s.pending with
  | nil =>
    rw [step_of_idle hp] at hstep
    cases hstep
    exact step_of_idle hp
  | cons w rest =>
    rw [step_of_pending hp, exec_eq_next_iff] at hstep
    rw [step_of_pending (s := s.withMatrix matrix) hp, exec_eq_next_iff, hstep]
    exact (after_withMatrix (s := { s with pending := rest }) hs hm (decode w)).symm

end Sys2Proof.Machine
end

section
/-! The code (40_code_functions.md R100): the multiples of g(x), and the weight of a codeword. -/

namespace Sys2Proof.Machine

/-! ## Multiples of g(x) -/

/-- One term of q(x) g(x), added to what the terms before it gave. -/
def addMultiple (q : BitVec 16) (r : Raw) (k : Nat) : Raw :=
  if q.getLsbD k then r ^^^ (generator <<< k) else r

/-- q(x) g(x) (R100). -/
def timesGenerator (q : BitVec 16) : Raw := (List.range 16).foldl (addMultiple q) 0

theorem addMultiple_xor (p q : BitVec 16) (r t : Raw) (k : Nat) :
    addMultiple (p ^^^ q) (r ^^^ t) k = addMultiple p r k ^^^ addMultiple q t k := by
  unfold addMultiple
  rw [BitVec.getLsbD_xor]
  cases p.getLsbD k <;> cases q.getLsbD k
  · rfl
  · simp [BitVec.xor_assoc]
  · show r ^^^ t ^^^ generator <<< k = r ^^^ generator <<< k ^^^ t
    ac_rfl
  · have hcancel : r ^^^ generator <<< k ^^^ (t ^^^ generator <<< k) =
        r ^^^ t ^^^ (generator <<< k ^^^ generator <<< k) := by ac_rfl
    simp [hcancel]

theorem foldl_addMultiple_xor (p q : BitVec 16) (l : List Nat) (r t : Raw) :
    l.foldl (addMultiple (p ^^^ q)) (r ^^^ t) = l.foldl (addMultiple p) r ^^^ l.foldl (addMultiple q) t := by
  induction l generalizing r t with
  | nil => rfl
  | cons k l ih => simp only [List.foldl_cons, addMultiple_xor, ih]

theorem timesGenerator_xor (p q : BitVec 16) : timesGenerator (p ^^^ q) = timesGenerator p ^^^ timesGenerator q :=
  foldl_addMultiple_xor p q (List.range 16) 0 0

theorem timesGenerator_zero : timesGenerator 0 = 0 := by decide

theorem timesGenerator_twoPow {k : Nat} (hk : k < 16) : timesGenerator (BitVec.twoPow 16 k) = generator <<< k := by
  revert k
  decide

@[simp] theorem remainder_zero : remainder 0 = 0 := by simpa using remainder_xor 0 0

/-- g(x) divides its multiples. -/
theorem remainder_timesGenerator (q : BitVec 16) : remainder (timesGenerator q) = 0 := by
  apply linear_eq_zero fun q => remainder (timesGenerator q)
  · intro p q
    rw [timesGenerator_xor, remainder_xor]
  · intro k hk
    rw [timesGenerator_twoPow hk, remainder_eq_rows]
    revert k
    decide

/-- What the division by g(x) takes off a block is a multiple of g(x). -/
theorem exists_eq_foldl_remainderStep (l : List Nat) (r : Raw) :
    ∃ q, r = l.foldl remainderStep r ^^^ timesGenerator q := by
  induction l generalizing r with
  | nil => exact ⟨0, (BitVec.xor_zero (x := r)).symm⟩
  | cons i l ih =>
    obtain ⟨q, hq⟩ := ih (remainderStep r i)
    rw [List.foldl_cons]
    by_cases hbit : r.getLsbD (25 - i) = true
    · have hstep : remainderStep r i = r ^^^ generator <<< (15 - i) := if_pos hbit
      refine ⟨q ^^^ BitVec.twoPow 16 (15 - i), ?_⟩
      rw [timesGenerator_xor, timesGenerator_twoPow (by omega), ← BitVec.xor_assoc, ← hq, hstep, BitVec.xor_assoc]
      simp
    · exact ⟨q, (if_neg hbit).symm.trans hq⟩

/-- The leading one of g(x), shifted for step i of the division, is at the bit that step looks at. -/
theorem generator_shiftLeft_leading : ∀ i < 16, (generator <<< (15 - i)).getLsbD (25 - i) = true ∧
    ∀ j < 26, 25 - i < j → (generator <<< (15 - i)).getLsbD j = false := by decide

/-- Step i clears bit 25−i and keeps the zeros above it. -/
theorem remainderStep_getLsbD_high {r : Raw} {i j : Nat} (hi : i < 16) (hj : 25 - i ≤ j)
    (hr : ∀ k, 25 - i < k → r.getLsbD k = false) : (remainderStep r i).getLsbD j = false := by
  obtain ⟨hlead, habove⟩ := generator_shiftLeft_leading i hi
  unfold remainderStep
  obtain rfl | hlt := hj.eq_or_lt
  · split
    · next hbit => rw [BitVec.getLsbD_xor, hbit, hlead, Bool.xor_self]
    · next hbit => simpa using hbit
  · split
    · by_cases hj26 : j < 26
      · rw [BitVec.getLsbD_xor, hr j hlt, habove j hj26 hlt, Bool.xor_self]
      · exact BitVec.getLsbD_of_ge _ _ (by omega)
    · exact hr j hlt

theorem foldl_remainderStep_getLsbD_high (v : Raw) {n : Nat} (hn : n ≤ 16) {j : Nat} (hj : 26 - n ≤ j) :
    ((List.range n).foldl remainderStep v).getLsbD j = false := by
  induction n generalizing j with
  | zero => exact BitVec.getLsbD_of_ge _ _ hj
  | succ n ih =>
    rw [List.range_succ, List.foldl_append]
    exact remainderStep_getLsbD_high (by omega) (by omega) fun k hk => ih (by omega) (by omega)

/-- The division by g(x) leaves no data. -/
theorem dataOf_foldl_remainderStep (v : Raw) : dataOf ((List.range 16).foldl remainderStep v) = 0 := by
  apply BitVec.eq_of_getLsbD_eq
  intro i hi
  have hbit := foldl_remainderStep_getLsbD_high v (Nat.le_refl 16) (j := 10 + i) (by omega)
  simp [dataOf, hbit]

theorem isCodeword_iff (v : Raw) : isCodeword v = true ↔ remainder v = 0 := by rw [isCodeword, beq_iff_eq]

theorem isCodeword_iff_exists_timesGenerator (v : Raw) : isCodeword v = true ↔ ∃ q, v = timesGenerator q := by
  rw [isCodeword_iff]
  constructor
  · intro hv
    obtain ⟨q, hq⟩ := exists_eq_foldl_remainderStep (List.range 16) v
    have hdata := dataOf_foldl_remainderStep v
    generalize (List.range 16).foldl remainderStep v = w at hq hdata
    have hrem : remainder w = 0 := by
      rw [hq, remainder_xor, remainder_timesGenerator] at hv
      simpa using hv
    have hw : w = 0 := eq_of_dataOf_remainder hdata (hrem.trans remainder_zero.symm)
    exact ⟨q, by simpa [hw] using hq⟩
  · rintro ⟨q, rfl⟩
    exact remainder_timesGenerator q

/-! ## The weight of a codeword -/

/-- The places of the ones of a block. -/
def onesOf (v : Raw) : List Nat := (List.range 26).filter fun k => v.getLsbD k

theorem mem_onesOf {v : Raw} {k : Nat} : k ∈ onesOf v ↔ v.getLsbD k = true := by
  simp only [onesOf, List.mem_filter, List.mem_range, and_iff_right_iff_imp]
  exact BitVec.lt_of_getLsbD

theorem onesOf_nodup (v : Raw) : (onesOf v).Nodup := List.nodup_range.filter _

theorem getLsbD_eq_mem_onesOf (v : Raw) (i : Nat) : v.getLsbD i = decide (i ∈ onesOf v) := by
  simp only [mem_onesOf, Bool.decide_eq_true]

theorem one_shiftLeft_getLsbD {k i : Nat} (hi : i < 26) : ((1 : Raw) <<< k).getLsbD i = decide (i = k) := by
  have h : ((1 : Raw) <<< k).getLsbD i = (decide (k < 26) && decide (k = i)) := BitVec.getLsbD_twoPow k i
  rw [h, ← Bool.decide_and, decide_eq_decide]
  omega

theorem eq_zero_of_onesOf {v : Raw} (h : onesOf v = []) : v = 0 := by
  apply BitVec.eq_of_getLsbD_eq
  intro i _
  rw [getLsbD_eq_mem_onesOf, h]
  simp

theorem eq_one_bit_of_onesOf {v : Raw} {k : Nat} (h : onesOf v = [k]) : v = (1 : Raw) <<< k := by
  apply BitVec.eq_of_getLsbD_eq
  intro i hi
  rw [getLsbD_eq_mem_onesOf, h, one_shiftLeft_getLsbD hi]
  simp

theorem eq_two_bits_of_onesOf {v : Raw} {j k : Nat} (h : onesOf v = [j, k]) (hjk : j ≠ k) :
    v = (1 : Raw) <<< j ^^^ (1 : Raw) <<< k := by
  apply BitVec.eq_of_getLsbD_eq
  intro i hi
  rw [getLsbD_eq_mem_onesOf, h, BitVec.getLsbD_xor, one_shiftLeft_getLsbD hi, one_shiftLeft_getLsbD hi]
  by_cases hij : i = j
  · simp [hij, hjk]
  · simp [hij]

theorem one_shiftLeft_mem_bursts {k : Nat} (hk : k < 26) : (1 : Raw) <<< k ∈ bursts :=
  (mem_bursts _).mpr (.inl ⟨k, hk, rfl⟩)

/-- One bit, and two bits, leave a remainder: the remainders of the 26 bits are not 0 and pairwise different. -/
theorem three_le_length_onesOf {v : Raw} (hv : remainder v = 0) (hne : v ≠ 0) : 3 ≤ (onesOf v).length := by
  have hlt : ∀ k ∈ onesOf v, k < 26 := fun k hk => BitVec.lt_of_getLsbD (mem_onesOf.mp hk)
  have hnodup := onesOf_nodup v
  match hones : onesOf v with
  | [] => exact absurd (eq_zero_of_onesOf hones) hne
  | [k] =>
    have hk : k < 26 := hlt k (by simp [hones])
    rw [eq_one_bit_of_onesOf hones] at hv
    exact absurd hv (remainder_burst_ne_zero (one_shiftLeft_mem_bursts hk))
  | [j, k] =>
    have hj : j < 26 := hlt j (by simp [hones])
    have hk : k < 26 := hlt k (by simp [hones])
    have hjk : j ≠ k := by simpa [hones] using hnodup
    rw [eq_two_bits_of_onesOf hones hjk, remainder_xor] at hv
    have hshift := remainder_injOn_bursts (one_shiftLeft_mem_bursts hj) (one_shiftLeft_mem_bursts hk)
      (BitVec.xor_eq_zero_iff.mp hv)
    have hbit := congrArg (BitVec.getLsbD · j) hshift
    simp only [one_shiftLeft_getLsbD hj] at hbit
    simp [hjk] at hbit
  | _ :: _ :: _ :: _ => simp

/-- Settles O33: division by g(x) takes a multiple off a block and leaves its remainder; and no single bit and no two bits
leave the remainder 0. -/
theorem codewordsAreTheMultiplesOfG : Obligations.CodewordsAreTheMultiplesOfG :=
  ⟨isCodeword_iff_exists_timesGenerator, fun v hv => three_le_length_onesOf ((isCodeword_iff v).mp hv)⟩

end Sys2Proof.Machine
end

section
/-! SYNDROME, CHECKWORD, ENCODE and OFFSET_OF (40_code_functions.md R103 to R106). -/

namespace Sys2Proof.Machine

/-! ## SYNDROME on a single bit -/

theorem foldl_xor_of_zero {f : Nat → Check} {l : List Nat} (hzero : ∀ j ∈ l, f j = 0) (a : Check) :
    l.foldl (fun s j => s ^^^ f j) a = a := by
  induction l generalizing a with
  | nil => rfl
  | cons j l ih =>
    rw [List.foldl_cons, ih fun k hk => hzero k (List.mem_cons_of_mem j hk), hzero j List.mem_cons_self]
    exact BitVec.xor_zero

/-- A sum with one term that is not 0. -/
theorem foldl_xor_single {f : Nat → Check} {l : List Nat} {i : Nat} (hnodup : l.Nodup) (hi : i ∈ l)
    (hzero : ∀ j ∈ l, j ≠ i → f j = 0) : l.foldl (fun s j => s ^^^ f j) 0 = f i := by
  obtain ⟨before, after, rfl⟩ := List.append_of_mem hi
  obtain ⟨hafter, hbefore⟩ := List.nodup_cons.mp (List.nodup_middle.mp hnodup)
  rw [List.mem_append, not_or] at hafter
  rw [List.foldl_append, List.foldl_cons, foldl_xor_of_zero, foldl_xor_of_zero]
  · exact BitVec.zero_xor
  · intro j hj
    exact hzero j (by simp [hj]) (ne_of_mem_of_not_mem hj hafter.1)
  · intro j hj
    exact hzero j (by simp [hj]) (ne_of_mem_of_not_mem hj hafter.2)

theorem rowTerm_one_shiftLeft (matrix : Vector Check 26) {i j : Nat} (hi : i < 26) (hj : j < 26) :
    rowTerm matrix ((1 : Raw) <<< (25 - i)) j = if j = i then matrix[i] else 0 := by
  have hbit : ((1 : Raw) <<< (25 - i)).getLsbD (25 - j) = decide (j = i) := by
    rw [one_shiftLeft_getLsbD (by omega), decide_eq_decide]
    omega
  unfold rowTerm
  rw [hbit]
  by_cases h : j = i
  · subst h
    simp [hj]
  · simp [h]

/-- Row i is the syndrome of the single bit 25−i (R103). -/
theorem syndrome_one_shiftLeft (matrix : Vector Check 26) {i : Nat} (hi : i < 26) :
    syndrome matrix ((1 : Raw) <<< (25 - i)) = matrix[i] := by
  rw [syndrome_eq_fold, foldl_xor_single List.nodup_range (List.mem_range.mpr hi)]
  · rw [rowTerm_one_shiftLeft matrix hi hi, if_pos rfl]
  · intro j hj hne
    rw [rowTerm_one_shiftLeft matrix hi (List.mem_range.mp hj), if_neg hne]

/-- Settles O34: linearity is a law of the code; on a single bit one term of the sum is not 0. -/
theorem syndromeIsTheMatrixProduct : Obligations.SyndromeIsTheMatrixProduct :=
  ⟨syndrome_xor, fun matrix i => syndrome_one_shiftLeft matrix i.isLt, syndrome_zero, by decide, by decide⟩

/-! ## CHECKWORD and ENCODE -/

theorem isCodeword_append_iff (d : Data) (c : Check) : isCodeword (d ++ c) = true ↔ c = checkword d := by
  rw [isCodeword_iff, remainder_eq, dataOf_append, checkOf_append]
  exact BitVec.xor_eq_zero_iff.trans eq_comm

theorem checkword_xor (a b : Data) : checkword (a ^^^ b) = checkword a ^^^ checkword b := by
  rw [checkword, checkword, checkword, ← remainder_xor, BitVec.xor_append, BitVec.xor_self]
  rfl

theorem checkword_eq_rows (d : Data) : checkword d = syndrome remainderMatrix (d ++ (0 : Check)) := remainder_eq_rows _

theorem dataOf_lowBits (c : Check) : dataOf (lowBits c) = 0 := by
  unfold dataOf lowBits
  ext i hi
  simp

theorem encodeBlock_zero (o : Offset) : encodeBlock 0 o = lowBits (offsetWord o) := by
  apply eq_of_dataOf_remainder
  · rw [dataOf_encodeBlock, dataOf_lowBits]
  · rw [remainder_encodeBlock, remainder_lowBits]

/-- Settles O35: linear on the data, CHECKWORD is a sum of the rows of `remainderMatrix`, on which the listed values are
evaluated. -/
theorem checkwordMakesACodeword : Obligations.CheckwordMakesACodeword := by
  refine ⟨isCodeword_append_iff, checkword_xor, ?_, fun d o => ⟨dataOf_encodeBlock d o, checkOf_append _ _⟩,
    encodeBlock_zero, ?_⟩
  · intro j
    rw [checkword_eq_rows]
    revert j
    decide
  · simp only [encodeBlock, checkword_eq_rows]
    decide

/-! ## The offset of a block -/

/-- Settles O36: the matrix of R101 is admissible, and its five offset syndromes are evaluated. -/
theorem encodedBlockShowsItsOffset : Obligations.EncodedBlockShowsItsOffset :=
  ⟨defaultMatrix_admissible.codewords, by decide, by decide, by decide, by decide, by decide⟩

theorem isCodeword_xor_offsetWord (v : Raw) (o : Offset) :
    isCodeword (v ^^^ lowBits (offsetWord o)) = true ↔ remainder v = offsetWord o := by
  rw [isCodeword_iff, remainder_xor, remainder_lowBits]
  exact BitVec.xor_eq_zero_iff

theorem eq_encodeBlock_iff (v : Raw) (o : Offset) : v = encodeBlock (dataOf v) o ↔ remainder v = offsetWord o := by
  constructor
  · intro h
    rw [h, remainder_encodeBlock]
  · intro h
    exact eq_of_dataOf_remainder (dataOf_encodeBlock _ o).symm (h.trans (remainder_encodeBlock _ o).symm)

/-- Settles O37: each of the four ways to say that a block shows an offset says that its remainder is the offset's word. -/
theorem observedOffsetOfABlock : Obligations.ObservedOffsetOfABlock := by
  intro matrix hm v o
  rw [observed_eq_some hm, isCodeword_xor_offsetWord, eq_encodeBlock_iff, syndrome_eq_iff hm, remainder_lowBits]
  exact ⟨Iff.rfl, Iff.rfl, Iff.rfl⟩

end Sys2Proof.Machine
end

section
/-! The error table, the lookup and the corrector (40_code_functions.md R107 to R112). -/

namespace Sys2Proof.Machine

/-! ## The table -/

theorem errTable_length (matrix : Vector Check 26) : (errTable matrix).length = 255 := by
  simp [errTable, errColumn, offsets, bursts_length]

theorem mem_offsets (o : Offset) : o ∈ offsets := by cases o <;> decide

theorem mem_errTable_iff {matrix : Vector Check 26} {s : Check} {o : Offset} {e : Raw} :
    (s, o, e) ∈ errTable matrix ↔ e ∈ bursts ∧ burstKey matrix o e = s := by
  simp only [errTable, errColumn, List.mem_flatMap, List.mem_map, Prod.mk.injEq]
  constructor
  · rintro ⟨o', -, ke, ⟨f, hf, rfl⟩, hkey, rfl, rfl⟩
    exact ⟨hf, hkey⟩
  · rintro ⟨he, hkey⟩
    exact ⟨o, mem_offsets o, _, ⟨e, he, rfl⟩, hkey, rfl, rfl⟩

/-- No burst leaves the remainder 0. -/
theorem offsetWord_xor_self_notMem_bursts (o : Offset) : offsetWord o ^^^ offsetWord o ∉ bursts.map remainder := by
  rw [BitVec.xor_self, List.mem_map]
  rintro ⟨e, he, hrem⟩
  exact remainder_burst_ne_zero he hrem

section Lookup

variable {matrix : Vector Check 26} (hm : Admissible matrix)
include hm

/-- The keys of one offset are pairwise different, since the remainders of the bursts are (R107). -/
theorem errColumn_keys_nodup (o : Offset) : ((errColumn matrix o).map Prod.fst).Nodup := by
  have hkeys : (errColumn matrix o).map Prod.fst = bursts.map (burstKey matrix o) := by simp [errColumn]
  rw [hkeys]
  refine List.Nodup.map_on ?_ (List.Nodup.of_map _ burst_remainders_distinct)
  intro e he f hf hkey
  rw [burstKey, burstKey, syndrome_eq_iff hm, remainder_xor, remainder_xor] at hkey
  exact remainder_injOn_bursts he hf (by simpa using hkey)

/-- Every ten-bit value is the syndrome of some block, so the lookup is known on all of them (R107, R108). -/
theorem errLookup_eq_some_iff_burstKey (s : Check) (o : Offset) (e : Raw) :
    errLookup matrix s o = some e ↔ e ∈ bursts ∧ burstKey matrix o e = s := by
  obtain ⟨v, rfl⟩ := hm.rank s
  rw [errLookup_eq_some hm, burstKey_eq_syndrome_iff hm]

/-- What a lookup hits on the clean syndrome of an offset (R112). -/
theorem errLookup_offsetSyn_eq_some_iff (x y : Offset) (e : Raw) :
    errLookup matrix (offsetSyn matrix x) y = some e ↔ e ∈ bursts ∧ burstRemainder y e = offsetWord x := by
  rw [offsetSyn, errLookup_eq_some hm, remainder_lowBits]

theorem errLookup_offsetSyn_eq_none_iff (x y : Offset) :
    errLookup matrix (offsetSyn matrix x) y = none ↔ offsetWord x ^^^ offsetWord y ∉ bursts.map remainder := by
  rw [offsetSyn, errLookup_eq_none hm, remainder_lowBits]

theorem errLookup_own_offsetSyn (o : Offset) : errLookup matrix (offsetSyn matrix o) o = none :=
  (errLookup_offsetSyn_eq_none_iff hm o o).mpr (offsetWord_xor_self_notMem_bursts o)

theorem errLookup_zero (o : Offset) : errLookup matrix 0 o = none := by
  rw [← syndrome_zero matrix, errLookup_eq_none hm, remainder_zero, funext remainder_eq_rows]
  cases o <;> decide

end Lookup

/-- Settles O38: the keys of one offset are the syndromes of its bursts, and a lookup is known on every syndrome by the rank of
the matrix. -/
theorem errorTableHoldsEveryBurst : Obligations.ErrorTableHoldsEveryBurst := by
  intro matrix hm
  refine ⟨errTable_length matrix, errColumn_keys_nodup hm, ?_⟩
  intro s o e
  rw [errLookup_eq_some_iff_burstKey hm, mem_bursts]
  rfl

/-- Settles O39: the lookup and the table hold the same bursts under the same keys; no burst leaves the remainder 0, and none
that of an offset word. -/
theorem lookupReadsTheErrorTable : Obligations.LookupReadsTheErrorTable := by
  refine ⟨?_, fun matrix hm o => ⟨errLookup_own_offsetSyn hm o, errLookup_zero hm o⟩, by decide⟩
  intro matrix hm s o e
  rw [errLookup_eq_some_iff_burstKey hm, mem_errTable_iff]

/-! ## The corrector -/

theorem xor_xor_self (v e : Raw) : v ^^^ e ^^^ e = v := by
  rw [BitVec.xor_assoc, BitVec.xor_self]
  exact BitVec.xor_zero

/-- The lookup answers the burst that hit a block, when the offset it was sent under is expected (R111). -/
theorem errLookup_encodeBlock_xor {matrix : Vector Check 26} (hm : Admissible matrix) (d : Data) (o : Offset) {e : Raw}
    (he : e ∈ bursts) : errLookup matrix (syndrome matrix (encodeBlock d o ^^^ e)) o = some e := by
  rw [errLookup_eq_some hm, remainder_xor, remainder_encodeBlock, burstRemainder, BitVec.xor_comm]
  exact ⟨he, rfl⟩

theorem correct_encodeBlock_xor {matrix : Vector Check 26} (hm : Admissible matrix) (d : Data) (o : Offset) {e : Raw}
    (he : e ∈ bursts) : correct matrix (encodeBlock d o ^^^ e) o = (true, encodeBlock d o) := by
  rw [correct_of_hit (errLookup_encodeBlock_xor hm d o he), xor_xor_self]

/-- Settles O40: the burst is the one vector whose key the damaged block shows. -/
theorem burstsAreRepaired : Obligations.BurstsAreRepaired :=
  fun _ hm d o e he => correct_encodeBlock_xor hm d o ((mem_bursts e).mpr he)

theorem eq_encodeBlock_of_hit {matrix : Vector Check 26} (hm : Admissible matrix) {raw e : Raw} {o : Offset}
    (h : errLookup matrix (syndrome matrix raw) o = some e) : raw ^^^ e = encodeBlock (dataOf (raw ^^^ e)) o := by
  obtain ⟨-, hrem⟩ := (errLookup_eq_some hm raw o e).mp h
  rw [eq_encodeBlock_iff, remainder_xor, ← hrem, burstRemainder, BitVec.xor_comm, ← BitVec.xor_assoc]
  simp

/-- Settles O41: by what the lookup answers. -/
theorem correctionYieldsABlock : Obligations.CorrectionYieldsABlock := by
  intro matrix hm raw o
  cases h : errLookup matrix (syndrome matrix raw) o with
  | none =>
    rw [correct_of_miss h]
    exact ⟨nofun, fun _ => rfl⟩
  | some e =>
    rw [correct_of_hit h]
    obtain ⟨he, -⟩ := (errLookup_eq_some hm raw o e).mp h
    exact ⟨fun _ => ⟨eq_encodeBlock_of_hit hm h, e, (mem_bursts e).mp he, rfl⟩, nofun⟩

/-! ## Blocks taken for blocks of another offset -/

/-- A burst takes a block of one offset to one of another when its remainder is the sum of the two words (R112). -/
theorem observed_encodeBlock_xor {matrix : Vector Check 26} (hm : Admissible matrix) (d : Data) {x y : Offset} {e : Raw}
    (he : e ∈ bursts) (hxy : offsetWord x ^^^ offsetWord y ∉ bursts.map remainder) :
    observed matrix (encodeBlock d x ^^^ e) ≠ some y := by
  rw [ne_eq, observed_eq_some hm, remainder_xor, remainder_encodeBlock]
  intro hrem
  refine hxy (List.mem_map.mpr ⟨e, he, ?_⟩)
  rw [← hrem, ← BitVec.xor_assoc]
  simp

/-- The false corrections of R112 item 3: the offset sent, the offset expected, and the burst the lookup answers. -/
def falseCorrections : List (Offset × Offset × Raw) :=
  [(.a, .b, 0x00C0000), (.b, .a, 0x00C0000), (.a, .d, 0x1800000), (.d, .a, 0x1800000), (.b, .cPrime, 0x0180000),
    (.cPrime, .b, 0x0180000), (.c, .d, 0x0040000), (.d, .c, 0x0040000)]

theorem burstRemainder_of_mem_falseCorrections :
    ∀ p ∈ falseCorrections, p.2.2 ∈ bursts ∧ burstRemainder p.2.1 p.2.2 = offsetWord p.1 := by
  simp only [burstRemainder, remainder_eq_rows]
  decide

/-- For no other pair of offsets do the two words differ by a burst's remainder. -/
theorem offsetWord_xor_notMem_bursts {x y : Offset} (hne : x ≠ y)
    (hpair : (x, y) ∉ falseCorrections.map fun p => (p.1, p.2.1)) :
    offsetWord x ^^^ offsetWord y ∉ bursts.map remainder := by
  have hall : ∀ x ∈ offsets, ∀ y ∈ offsets, x ≠ y → (x, y) ∉ falseCorrections.map (fun p => (p.1, p.2.1)) →
      offsetWord x ^^^ offsetWord y ∉ bursts.map (syndrome remainderMatrix) := by decide
  rw [funext remainder_eq_rows]
  exact hall x (mem_offsets x) y (mem_offsets y) hne hpair

/-- Settles O42: a clean block of one offset is corrected for another exactly when some burst's remainder is the sum of the two
offset words, which is so for the eight pairs of `falseCorrections` and for no other. -/
theorem falseCorrectionsOfCleanBlocks : Obligations.FalseCorrectionsOfCleanBlocks := by
  intro matrix hm
  have hhit : ∀ x y e, (x, y, e) ∈ falseCorrections → errLookup matrix (offsetSyn matrix x) y = some e := fun x y e h =>
    (errLookup_offsetSyn_eq_some_iff hm x y e).mpr (burstRemainder_of_mem_falseCorrections _ h)
  have hmiss : ∀ x y, x ≠ y → (x, y) ∉ falseCorrections.map (fun p => (p.1, p.2.1)) →
      errLookup matrix (offsetSyn matrix x) y = none := fun x y hne hpair =>
    (errLookup_offsetSyn_eq_none_iff hm x y).mpr (offsetWord_xor_notMem_bursts hne hpair)
  have hc : offsetWord .c ^^^ offsetWord .cPrime ∉ bursts.map remainder :=
    offsetWord_xor_notMem_bursts (by decide) (by decide)
  exact ⟨hhit _ _ _ (by decide), hhit _ _ _ (by decide), hhit _ _ _ (by decide), hhit _ _ _ (by decide),
    hhit _ _ _ (by decide), hhit _ _ _ (by decide), hhit _ _ _ (by decide), hhit _ _ _ (by decide), hmiss,
    fun d e he => observed_encodeBlock_xor hm d ((mem_bursts e).mpr he) hc⟩

end Sys2Proof.Machine
end

section
/-! A group with one burst in each block (40_code_functions.md R111, 41_push_bit.md R143, R149). -/

namespace Sys2Proof.Machine

/-! ## One damaged block -/

/-- A burst hides the offset a block was sent under. -/
theorem observed_damaged_ne {matrix : Vector Check 26} (hm : Admissible matrix) (d : Data) (o : Offset) {e : Raw}
    (he : e ∈ bursts) : observed matrix (encodeBlock d o ^^^ e) ≠ some o :=
  observed_encodeBlock_xor hm d he (offsetWord_xor_self_notMem_bursts o)

/-- A burst on a block sent under C does not show C′, so nothing is substituted (R140). -/
theorem effectiveOffset_damaged {matrix : Vector Check 26} (hm : Admissible matrix) (d : Data) (o : Offset) {e : Raw}
    (he : e ∈ bursts) : effectiveOffset (observed matrix (encodeBlock d o ^^^ e)) o = o := by
  apply effectiveOffset_of_not
  rintro ⟨rfl, hobs⟩
  exact observed_encodeBlock_xor hm d he (offsetWord_xor_notMem_bursts (by decide) (by decide)) hobs

/-- In sync at a block boundary, an offset expected, and sync not lost on a corrected block. -/
structure Awaits (o : Offset) (s : State) : Prop where
  matrix : Admissible s.cfg.matrix
  lossCheck : s.cfg.lossCheck = .onUncorrectable
  inSync : s.inSync = true
  nbUntil : s.nbUntil = 26
  expected : s.expected = o

/-- With LOSS_CHECK = on_uncorrectable a corrected block never drops sync (R144). -/
theorem Awaits.lossFound {o : Offset} {s : State} (h : Awaits o s) (w : List Bool) : lossFound s.cfg false w = false := by
  rw [Bool.eq_false_iff, ne_eq, lossFound_iff, h.lossCheck]
  simp

/-- The state in which a whole block pushed in sync is received. -/
def atBlockEnd (r : Raw) (s : State) : State :=
  { s with reg := r, bitcount := s.bitcount + 26, nbUntil := 1, out := none }

/-- What is stored for a block that is sent at an offset, hit and repaired (R143). -/
def repairedSlot (d : Data) (o : Offset) : Slot :=
  { raw := encodeBlock d o, data := d, offset := some o, isReceived := true, hadErrors := true }

/-- A block hit by one burst under the offset expected is stored as sent, and sync is kept (R111, R143, R144). -/
theorem execAll_damagedBlock {s : State} {o : Offset} (h : Awaits o s) (d : Data) {e : Raw} (he : e ∈ bursts) :
    execAll (expand (.pushBlockWithErrors d o e)) s =
      reloadCount (closeBlock (setSlot s.cur (blockNo o) (repairedSlot d o)) o
        (pushErrorFlag true (atBlockEnd (encodeBlock d o ^^^ e) s))) := by
  have hblock := execAll_block (encodeBlock d o ^^^ e) s h.inSync h.nbUntil
  have heff : effectiveOffset (observed s.cfg.matrix (encodeBlock d o ^^^ e)) s.expected = o := by
    rw [h.expected, effectiveOffset_damaged h.matrix d o he]
  have hreceive := receive_corrected (s := atBlockEnd (encodeBlock d o ^^^ e) s) heff (observed_damaged_ne h.matrix d o he)
    (errLookup_encodeBlock_xor h.matrix d o he) (h.lossFound _)
  rw [xor_xor_self, dataOf_encodeBlock] at hreceive
  exact hblock.trans (congrArg reloadCount hreceive)

theorem damagedBlock_stored {s : State} {o : Offset} (h : Awaits o s) (ho : o ≠ .d) (d : Data) {e : Raw}
    (he : e ∈ bursts) :
    Awaits (nextOffset o) (execAll (expand (.pushBlockWithErrors d o e)) s) ∧
    (execAll (expand (.pushBlockWithErrors d o e)) s).cur = setSlot s.cur (blockNo o) (repairedSlot d o) := by
  rw [execAll_damagedBlock h d he, closeBlock, if_neg ho]
  exact ⟨⟨h.matrix, h.lossCheck, h.inSync, if_pos h.inSync, rfl⟩, rfl⟩

/-- A damaged block D ends its group, which is emitted with the repaired block in slot 4 (R149, R164). -/
theorem damagedBlockD_emits {s : State} (h : Awaits .d s) (d : Data) {e : Raw} (he : e ∈ bursts) :
    Awaits .a (execAll (expand (.pushBlockWithErrors d .d e)) s) ∧
    ∃ n, (execAll (expand (.pushBlockWithErrors d .d e)) s).ready =
        groupRecord s.offsetsDisabled (setSlot s.cur .four (repairedSlot d .d)) n ∧
      (execAll (expand (.pushBlockWithErrors d .d e)) s).out =
        some (execAll (expand (.pushBlockWithErrors d .d e)) s).ready := by
  rw [execAll_damagedBlock h d he, closeBlock, if_pos rfl]
  exact ⟨⟨h.matrix, h.lossCheck, h.inSync, if_pos h.inSync, rfl⟩, _, rfl, rfl⟩

/-! ## The group -/

/-- Settles O55: blocks A, B and C are stored as sent one after another, and block D emits the group of the four. -/
theorem burstDamagedGroupIsRecovered : Obligations.BurstDamagedGroupIsRecovered := by
  intro s d1 d2 d3 d4 e1 e2 e3 e4 _ hm hs hn hexp hloss he
  have ha : Awaits .a s := ⟨hm, hloss, hs, hn, hexp⟩
  obtain ⟨hb, hcur1⟩ := damagedBlock_stored ha (by decide) d1 (he e1 (by simp))
  obtain ⟨hc, hcur2⟩ := damagedBlock_stored (o := .b) hb (by decide) d2 (he e2 (by simp))
  obtain ⟨hd, hcur3⟩ := damagedBlock_stored (o := .c) hc (by decide) d3 (he e3 (by simp))
  obtain ⟨ha', n, hready, hout⟩ := damagedBlockD_emits hd d4 (he e4 (by simp))
  rw [hcur3, hcur2, hcur1] at hready
  simp only [List.flatMap_cons, List.flatMap_nil, List.append_nil, execAll_append]
  exact ⟨hout, congrArg Group.nErr hready, congrArg Group.slots hready, ha'.inSync, ha'.expected⟩

end Sys2Proof.Machine
end

section
/-! PUSH_BIT (41_push_bit.md sections 1 and 2): the received bit, the search step, and the acquisition of sync. -/

namespace Sys2Proof.Machine

/-! ## The received bit -/

/-- The block counter after PUSH_BIT: reloaded by `in_sync` at the end of a block, else counted down (R130, R131). -/
theorem after_pushBit_nbUntil (b : Bool) (s : State) : (after (.pushBit b) s).nbUntil =
    if s.nbUntil ≤ 1 then (if (after (.pushBit b) s).inSync then 26 else 1) else s.nbUntil - 1 := by
  by_cases hn : s.nbUntil ≤ 1
  · rw [if_pos hn, after_pushBit_boundary hn]
    rfl
  · rw [if_neg hn, after_pushBit_inside (by omega)]

/-- Settles O13: the bit and its count by PUSH_BIT's frame, the block counter by its two cases. -/
theorem pushBitShiftsAndCounts : Obligations.PushBitShiftsAndCounts := by
  intro b s
  obtain ⟨hcfg, hreg, hcount, hdisabled, hpending⟩ := pushBit_frame b (clearOut s)
  exact ⟨after (.pushBit b) s, exec_eq _ _, hreg.trans (shiftIn_eq_shift s.reg b), hcount, after_pushBit_nbUntil b s,
    hcfg, hpending, hdisabled⟩

/-- Settles O14: PUSH_BIT with `nb_until` at least 2 makes no block step. -/
theorem pushBitInsideABlock : Obligations.PushBitInsideABlock := by
  intro b s hn
  rw [exec_eq, after_pushBit_inside hn]
  rfl

/-! ## The search step -/

/-- A search step that completes no sequence counts the bit and records the pulse observed, if any (R133). -/
theorem after_pushBit_searched {b : Bool} {s : State} (hs : s.inSync = false) (hn : s.nbUntil = 1)
    (hseq : ∀ o, observed s.cfg.matrix (shiftIn s.reg b) = some o →
      sequenceFound (pushPulse s.pulses o (s.bitcount + 1)) = false) :
    after (.pushBit b) s = reloadCount (searched (observed s.cfg.matrix (shiftIn s.reg b)) (takeBit b (clearOut s))) := by
  obtain ⟨hin, -⟩ | ⟨-, -, -, h⟩ | ⟨-, hsync, -⟩ | ⟨-, -, o, hobs, hfound, -⟩ := after_pushBit_cases b s
  · omega
  · exact h
  · simp [hs] at hsync
  · simp [hseq o hobs] at hfound

/-- The counter of a unit that stays out of sync is reloaded with the 1 it held. -/
theorem reloadCount_of_searching {t : State} (hs : t.inSync = false) (hn : t.nbUntil = 1) : reloadCount t = t := by
  rw [reloadCount, if_neg (ne_true_of_eq_false hs), ← hn]

/-- Settles O16: with no offset observed the search step only counts the bit. -/
theorem searchStepWithoutOffset : Obligations.SearchStepWithoutOffset := by
  intro b s hs hn hobs
  rw [exec_eq, after_pushBit_searched hs hn (by simp [hobs]), hobs]
  exact congrArg _ (reloadCount_of_searching hs hn)

/-- Settles O17: the pulse observed enters the history, and completes no sequence. -/
theorem searchStepRecordsAPulse : Obligations.SearchStepRecordsAPulse := by
  intro b s o hs hn hobs pulses hseq
  have hnone : ∀ o', observed s.cfg.matrix (shiftIn s.reg b) = some o' →
      sequenceFound (pushPulse s.pulses o' (s.bitcount + 1)) = false := by
    intro o' ho'
    rw [hobs] at ho'
    cases ho'
    exact hseq
  rw [exec_eq, after_pushBit_searched hs hn hnone, hobs]
  exact congrArg _ (reloadCount_of_searching hs hn)

/-- Settles O18, with the comparison of two pulses written out. -/
theorem sequenceFoundExactlyWhen : Obligations.SequenceFoundExactlyWhen := by
  intro h
  simp only [sequenceFound_iff, pulsesMatch_iff]

/-! ## The acquisition of sync -/

/-- What is stored for a block received without error (R142, R146). -/
def cleanSlot (raw : Raw) (o : Offset) : Slot :=
  { raw := raw, data := dataOf raw, offset := some o, isReceived := true, hadErrors := false }

/-- The block on which sync is acquired is received clean, and with an empty window it does not drop the sync (R132, R138). -/
theorem after_pushBit_acquired {b : Bool} {s : State} {o : Offset} (hacq : Acquires s b o) (hn : s.nbUntil = 1)
    (hwin : errSum s.errwin = 0) :
    after (.pushBit b) s = reloadCount (closeBlock (setSlot Slots.fresh (blockNo o) (cleanSlot (shiftIn s.reg b) o)) o
      (pushErrorFlag false (acquired o (takeBit b (clearOut s))))) := by
  obtain ⟨hs, hobs, hseq⟩ := hacq
  have hkept : lossFound s.cfg false (pushWindow s.errwin false) = false :=
    lossFound_of_le (by rw [errSum_pushWindow_false hwin]; omega)
  obtain ⟨hin, -⟩ | ⟨-, -, hnone, -⟩ | ⟨-, hsync, -⟩ | ⟨-, -, o', hobs', -, h⟩ := after_pushBit_cases b s
  · omega
  · simp [hnone o hobs] at hseq
  · simp [hs] at hsync
  · obtain rfl : o = o' := Option.some.inj (hobs.symm.trans hobs')
    rw [h, hobs]
    exact congrArg reloadCount (receive_clean (effectiveOffset_self o) hkept)

/-- A group of one clean block D counts its three missing blocks (R161). -/
theorem nErrOf_cleanSlot_four (raw : Raw) : nErrOf (setSlot Slots.fresh .four (cleanSlot raw .d)) = 3 := rfl

/-- Settles O19: the state of the acquisition, and whether its block ends the group. -/
theorem searchStepAcquiresSync : Obligations.SearchStepAcquiresSync := by
  intro b s o hs hn hwin hobs raw pulses slots hseq
  refine ⟨after (.pushBit b) s, exec_eq _ _, ?_⟩
  rw [after_pushBit_acquired ⟨hs, hobs, hseq⟩ hn hwin, closeBlock]
  by_cases ho : o = .d
  · subst ho
    rw [if_pos rfl]
    exact ⟨rfl, fun hne => absurd rfl hne, fun _ => ⟨rfl, rfl, rfl, nErrOf_cleanSlot_four raw, rfl, rfl⟩⟩
  · rw [if_neg ho]
    exact ⟨rfl, fun _ => ⟨rfl, rfl, rfl, rfl, rfl⟩, fun hd => absurd hd ho⟩

end Sys2Proof.Machine
end

section
/-! PUSH_BIT (41_push_bit.md section 3): the reception of a block, its storing, the loss of sync and the emission. -/

namespace Sys2Proof.Machine

/-! ## A block that is stored and keeps sync -/

/-- The end of a block other than D that keeps sync (R131, R141, R146, R148). -/
theorem reloadCount_closeBlock {s : State} {o : Offset} (hs : s.inSync = true) (ho : o ≠ .d) (b had : Bool) (slots : Slots) :
    reloadCount (closeBlock slots o (pushErrorFlag had (takeBit b (clearOut s)))) = { s with
      reg := shiftIn s.reg b, bitcount := s.bitcount + 1, nbUntil := 26, expected := nextOffset o,
      errwin := (s.errwin ++ [had]).drop 1, cur := slots, out := none } := by
  have hcount : (if s.inSync then blockLen else 1) = 26 := if_pos hs
  rw [closeBlock, if_neg ho, ← hcount]
  rfl

/-- A block that is clean or corrected drops sync only when the test is made on every block (R144). -/
theorem lossFound_framed {cfg : Config} {w : List Bool} (h : ¬ (cfg.lossCheck = .everyBlock ∧ 45 < errSum w)) :
    lossFound cfg false w = false := by
  rw [Bool.eq_false_iff, ne_eq, lossFound_iff]
  rintro ⟨hev | hev, hsum⟩
  · cases hev
  · exact h ⟨hev, hsum⟩

/-- Settles O20: the block is clean at the offset in effect, which is C′ where C is expected and C′ is observed. -/
theorem cleanBlockIsStored : Obligations.CleanBlockIsStored := by
  intro b s o hs hn hexp ho hobs hloss raw
  have heff : effectiveOffset (some o) s.expected = o := by
    obtain rfl | ⟨hc, rfl⟩ := ho
    · exact effectiveOffset_self _
    · rw [hc]; rfl
  have hod : o ≠ .d := by
    obtain rfl | ⟨-, rfl⟩ := ho
    · exact hexp
    · decide
  rw [exec_eq, after_pushBit_receive hn.le hs, hobs,
    receive_clean (s := takeBit b (clearOut s)) heff (lossFound_framed hloss)]
  exact congrArg _ (reloadCount_closeBlock hs hod b false _)

/-- Settles O21: the block is in error at the expected offset, and the table holds its correction. -/
theorem correctedBlockIsStored : Obligations.CorrectedBlockIsStored := by
  intro b s e hs hn hexp hne hsub hlook hloss raw
  rw [exec_eq, after_pushBit_receive hn.le hs,
    receive_corrected (s := takeBit b (clearOut s)) (effectiveOffset_of_not hsub) hne hlook (lossFound_framed hloss)]
  exact congrArg _ (reloadCount_closeBlock hs hexp b true _)

/-- Settles O22: the block is in error at the expected offset, and the table holds no correction. -/
theorem uncorrectableBlockMarksItsSlot : Obligations.UncorrectableBlockMarksItsSlot := by
  intro b s hs hn hexp hne hsub hlook hsum
  have hkept : afterLoss true true (takeBit b (clearOut s)) = pushErrorFlag true (takeBit b (clearOut s)) :=
    afterLoss_kept (lossFound_of_le hsum)
  rw [exec_eq, after_pushBit_receive hn.le hs,
    receive_uncorrectable (s := takeBit b (clearOut s)) (effectiveOffset_of_not hsub) hne hlook, hkept]
  exact congrArg _ (reloadCount_closeBlock hs hexp b true _)

/-! ## The end of any block -/

section Filled

variable {matrix : Vector Check 26} {raw : Raw} {obs : Option Offset} {o : Offset} {before sl : Slot}
  (h : FilledFrom matrix raw obs o before sl)
include h

theorem filledFrom_clean (hobs : obs = some o) : sl = cleanSlot raw o := by
  obtain ⟨-, hsl⟩ | ⟨hne, -⟩ | ⟨hne, -⟩ := h
  · exact hsl
  · exact absurd hobs hne
  · exact absurd hobs hne

theorem filledFrom_corrected {e : Raw} (hne : obs ≠ some o) (hlook : errLookup matrix (syndrome matrix raw) o = some e) :
    sl = { cleanSlot (raw ^^^ e) o with hadErrors := true } := by
  obtain ⟨hobs, -⟩ | ⟨-, e', hlook', hsl⟩ | ⟨-, hmiss, -⟩ := h
  · exact absurd hobs hne
  · obtain rfl : e = e' := Option.some.inj (hlook.symm.trans hlook')
    exact hsl
  · simp [hmiss] at hlook

theorem filledFrom_uncorrectable (hne : obs ≠ some o) (hlook : errLookup matrix (syndrome matrix raw) o = none) :
    sl = { before with hadErrors := true } := by
  obtain ⟨hobs, -⟩ | ⟨-, e, hhit, -⟩ | ⟨-, -, hsl⟩ := h
  · exact absurd hobs hne
  · simp [hhit] at hlook
  · exact hsl

end Filled

/-- PUSH_BIT b at the end of a block in sync: one slot is filled and the loss test is made, and then the slots are stored or
emitted, whatever the test found (R139, R145). -/
theorem after_pushBit_blockEnd {b : Bool} {s : State} {o : Offset} (hs : s.inSync = true) (hn : s.nbUntil = 1)
    (ho : effectiveOffset (observed s.cfg.matrix (shiftIn s.reg b)) s.expected = o) :
    ∃ unc had sl, (had = true ↔ observed s.cfg.matrix (shiftIn s.reg b) ≠ some o) ∧
      (unc = true ↔ had = true ∧ errLookup s.cfg.matrix (syndrome s.cfg.matrix (shiftIn s.reg b)) o = none) ∧
      FilledFrom s.cfg.matrix (shiftIn s.reg b) (observed s.cfg.matrix (shiftIn s.reg b)) o (getSlot s.cur (blockNo o)) sl ∧
      after (.pushBit b) s = reloadCount (closeBlock (setSlot s.cur (blockNo o) sl) o
        (afterLoss unc had (takeBit b (clearOut s)))) := by
  rw [after_pushBit_receive hn.le hs]
  by_cases hobs : observed s.cfg.matrix (shiftIn s.reg b) = some o
  · rw [hobs] at ho ⊢
    exact ⟨false, false, _, by simp, by simp, .inl ⟨rfl, rfl⟩,
      congrArg reloadCount (receive_clean_afterLoss (s := takeBit b (clearOut s)) ho)⟩
  · cases hlook : errLookup s.cfg.matrix (syndrome s.cfg.matrix (shiftIn s.reg b)) o with
    | some e =>
      exact ⟨false, true, _, by simp [hobs], by simp, .inr (.inl ⟨hobs, e, hlook, rfl⟩),
        congrArg reloadCount (receive_corrected_afterLoss (s := takeBit b (clearOut s)) ho hobs hlook)⟩
    | none =>
      exact ⟨true, true, _, by simp [hobs], by simp, .inr (.inr ⟨hobs, hlook, rfl⟩),
        congrArg reloadCount (receive_uncorrectable (s := takeBit b (clearOut s)) ho hobs hlook)⟩

/-- What the loss test decides: `in_sync`, the window and the reload of the counter (R131, R144). -/
theorem blockEnd_sync {u : State} (hs : u.inSync = true) (unc had : Bool) (slots : Slots) (o : Offset) :
    let t := reloadCount (closeBlock slots o (afterLoss unc had u))
    (t.inSync = false ↔ lossFound u.cfg unc (pushWindow u.errwin had) = true) ∧
    (t.inSync = true → t.errwin = pushWindow u.errwin had ∧ t.nbUntil = 26) ∧
    (t.inSync = false → t.errwin = List.replicate 50 false ∧ t.nbUntil = 1) := by
  obtain ⟨hsync, hwin, -⟩ := closeBlock_frame slots o (afterLoss unc had u)
  simp only [reloadCount_inSync, reloadCount_errwin, reloadCount_nbUntil, hsync, hwin]
  obtain ⟨hloss, hs', hwin'⟩ | ⟨hloss, hs', hwin'⟩ := afterLoss_cases u unc had
  · rw [hs', hwin']
    exact ⟨by simp [hloss], nofun, fun _ => ⟨rfl, rfl⟩⟩
  · rw [hs', hwin', hs]
    exact ⟨by simp [hloss], fun _ => ⟨rfl, rfl⟩, nofun⟩

/-- In sync PUSH_BIT records no pulse and does not count the bits of a search (R132). -/
theorem pushBit_history_of_inSync (b : Bool) {s : State} (hs : s.inSync = true) :
    (after (.pushBit b) s).pulses = s.pulses ∧ (after (.pushBit b) s).bitsSinceLost = s.bitsSinceLost := by
  obtain ⟨-, h⟩ | ⟨-, hsearch, -⟩ | ⟨-, -, h⟩ | ⟨-, hsearch, -⟩ := after_pushBit_cases b s
  · rw [h]
    exact ⟨rfl, rfl⟩
  · simp [hs] at hsearch
  · obtain ⟨-, -, -, -, -, hsince, hpulses, -⟩ := receive_frame (shiftIn s.reg b)
      (observed s.cfg.matrix (shiftIn s.reg b)) (takeBit b (clearOut s))
    rw [h]
    exact ⟨hpulses, hsince⟩
  · simp [hs] at hsearch

/-- The slots at the end of a block stand in `cur`, or in the group emitted (R146, R149). -/
theorem closeBlock_slots (slots : Slots) (o : Offset) (u : State) :
    (if o = .d then (closeBlock slots o u).ready.slots else (closeBlock slots o u).cur) = slots := by
  unfold closeBlock
  split <;> rfl

/-- A block other than D emits nothing, whatever the loss test found (R145, R149). -/
theorem blockEnd_silent {o : Offset} (ho : o ≠ .d) (slots : Slots) (unc had : Bool) (u : State) :
    let t := closeBlock slots o (afterLoss unc had u)
    t.blerwin = u.blerwin ∧ t.ready = u.ready ∧ t.groupReady = u.groupReady ∧ t.out = u.out := by
  rw [closeBlock, if_neg ho]
  simp

/-- Block D emits its group and begins a fresh one, whatever the loss test found (R145, R149, R164). -/
theorem blockEnd_emits (slots : Slots) (unc had : Bool) (u : State) :
    let t := closeBlock slots .d (afterLoss unc had u)
    t.expected = .a ∧ t.cur = Slots.fresh ∧ t.groupReady = true ∧ t.out = some t.ready ∧
    t.blerwin = pushWindow u.blerwin t.ready.nErr ∧ t.ready = groupRecord u.offsetsDisabled slots t.blerwin.sum := by
  rw [closeBlock, if_pos rfl]
  simp [emit, groupRecord]

/-- Settles O23: the loss test decides `in_sync`, the window and the counter alone; the slot, the advance and the emission are
those of `closeBlock` either way. -/
theorem syncIsLostExactlyWhen : Obligations.SyncIsLostExactlyWhen := by
  intro b s hs hn raw obs o had lookup uncorrectable window filled slots
  obtain ⟨unc, had', sl, hhad, hunc, hfill, h⟩ := after_pushBit_blockEnd (o := o) hs hn rfl
  obtain rfl : had' = had := by rw [Bool.eq_iff_iff, hhad, decide_eq_true_iff]
  obtain ⟨hlost, hkeep, hdrop⟩ := blockEnd_sync (u := takeBit b (clearOut s)) hs unc had (filled sl) o
  obtain ⟨hpulses, hsince⟩ := pushBit_history_of_inSync b hs
  have hslots : slots (after (.pushBit b) s) = filled sl := by
    rw [h]
    exact closeBlock_slots _ _ _
  have hne : had = true → obs ≠ some o := hhad.mp
  rw [lossFound_iff, hunc] at hlost
  refine ⟨after (.pushBit b) s, exec_eq _ _, ?_, ?_, ?_, ?_, hsince, hpulses, ?_, ?_, ?_, ?_, ?_⟩
  · rw [h]
    exact hlost
  · rw [h]
    exact hkeep
  · rw [h]
    exact hdrop
  · rw [h]
    exact (closeBlock_cur_expected _ _ _).1
  · intro hclean
    rw [hslots, filledFrom_clean hfill (not_not.mp (of_decide_eq_false hclean))]
    rfl
  · intro herr e he
    rw [hslots, filledFrom_corrected hfill (hne herr) he]
    rfl
  · rintro ⟨herr, hmiss⟩
    rw [hslots, filledFrom_uncorrectable hfill (hne herr) hmiss]
  · intro hod
    rw [h]
    exact blockEnd_silent hod (filled sl) unc had (takeBit b (clearOut s))
  · intro hod
    rw [h, hod]
    obtain ⟨-, hcur, hready, hout, hbler, -⟩ := blockEnd_emits (setSlot s.cur .four sl) unc had (takeBit b (clearOut s))
    exact ⟨hcur, hready, hout, hbler⟩

/-- Settles O24: the block expected as D is filled in as it is received, and its group emitted. -/
theorem blockDEmitsTheGroup : Obligations.BlockDEmitsTheGroup := by
  intro b s hs hn hexp raw lookup
  obtain ⟨-, hreg, hcount, -⟩ := pushBit_frame b (clearOut s)
  obtain ⟨unc, had, sl, -, -, hfill, h⟩ := after_pushBit_blockEnd (o := .d) hs hn (by rw [hexp]; rfl)
  obtain ⟨hnext, hcur, hflag, hout, hbler, hready⟩ :=
    blockEnd_emits (setSlot s.cur .four sl) unc had (takeBit b (clearOut s))
  have hslots : (after (.pushBit b) s).ready.slots = setSlot s.cur .four sl := by
    rw [h]
    exact congrArg Group.slots hready
  refine ⟨after (.pushBit b) s, exec_eq _ _, hreg, hcount, ?_⟩
  rw [hslots, h]
  refine ⟨hnext, hcur, hflag, hout, hbler, hready, ?_, ?_, ?_⟩
  · intro hobs
    rw [filledFrom_clean hfill hobs]
    rfl
  · intro hne e he
    rw [filledFrom_corrected hfill hne he]
    rfl
  · intro hne hmiss
    rw [filledFrom_uncorrectable hfill hne hmiss]
    rfl

end Sys2Proof.Machine
end

section
/-! The control flow of the unit (41_push_bit.md R152), and the pulses a loss of sync leaves behind (R153). -/

namespace Sys2Proof.Machine

/-! ## Control flow -/

section Search

variable {b : Bool} {s : State} (hs : s.inSync = false) (hn : s.nbUntil = 1)
include hs hn

/-- A search step that completes no sequence leaves the unit searching. -/
theorem control_of_searched (hseq : ∀ o, observed s.cfg.matrix (shiftIn s.reg b) = some o →
    sequenceFound (pushPulse s.pulses o (s.bitcount + 1)) = false) :
    (after (.pushBit b) s).inSync = false ∧ (after (.pushBit b) s).nbUntil = 1 ∧
    (after (.pushBit b) s).expected = s.expected := by
  rw [after_pushBit_searched hs hn hseq]
  cases observed s.cfg.matrix (shiftIn s.reg b) <;> exact ⟨hs, if_neg (ne_true_of_eq_false hs), rfl⟩

/-- An acquisition goes on with the block after the one just received. -/
theorem control_of_acquired {o : Offset} (hwin : errSum s.errwin = 0)
    (hobs : observed s.cfg.matrix (shiftIn s.reg b) = some o)
    (hseq : sequenceFound (pushPulse s.pulses o (s.bitcount + 1)) = true) :
    (after (.pushBit b) s).inSync = true ∧ (after (.pushBit b) s).nbUntil = 26 ∧
    (after (.pushBit b) s).expected = nextOffset o := by
  rw [after_pushBit_acquired ⟨hs, hobs, hseq⟩ hn hwin]
  generalize setSlot Slots.fresh (blockNo o) (cleanSlot (shiftIn s.reg b) o) = slots
  obtain ⟨hsync, -⟩ := closeBlock_frame slots o (pushErrorFlag false (acquired o (takeBit b (clearOut s))))
  exact ⟨hsync, if_pos hsync, (closeBlock_cur_expected _ _ _).1⟩

end Search

/-- Settles O45, transition by transition. -/
theorem controlFlowTransitions : Obligations.ControlFlowTransitions := by
  refine ⟨?_, ?_, ?_, ?_, ?_⟩
  · intro b s t h hs hn hwin obs
    obtain rfl := exec_eq_next_iff.mp h
    exact ⟨control_of_searched hs hn, fun o => control_of_acquired hs hn hwin⟩
  · intro b s t h hs hn
    obtain rfl := exec_eq_next_iff.mp h
    rw [after_pushBit_inside hn]
    exact ⟨hs, rfl, rfl⟩
  · intro b s t h hs hn
    obtain rfl := exec_eq_next_iff.mp h
    have hnb := after_pushBit_nbUntil b s
    rw [if_pos hn.le] at hnb
    refine ⟨?_, fun ht => by rw [hnb, ht]; rfl, fun ht => by rw [hnb, ht]; rfl⟩
    rw [after_pushBit_receive hn.le hs]
    exact receive_expected _ _ _
  · intro s t h
    obtain rfl := exec_eq_next_iff.mp h
    exact ⟨rfl, rfl, rfl⟩
  · intro i s t h hpush hreset
    obtain rfl := exec_eq_next_iff.mp h
    obtain ⟨b, hi⟩ | hi | hdec := after_decoder_cases i s
    · exact absurd hi (hpush b)
    · exact absurd hi hreset
    · exact ⟨congrArg Decoder.inSync hdec, congrArg Decoder.nbUntil hdec, congrArg Decoder.expected hdec⟩

/-! ## Stale pulses -/

/-- A bound on the newer entry's stamp bounds the older one's (R25). -/
theorem OlderThan.stamp_le {older newer : Option Pulse} {n : Nat} (h : OlderThan older newer)
    (hnewer : ∀ p, newer = some p → p.bitcount ≤ n) (p : Pulse) (hp : older = some p) : p.bitcount ≤ n := by
  obtain ⟨q, hq, hlt⟩ := h p hp
  exact hlt.le.trans (hnewer q hq)

/-- Every pulse of the history is stamped no later than the newest (R32). -/
theorem HistoryWf.stamp_le {h : PulseHistory} {n : Nat} (hwf : HistoryWf h n) {p q : Pulse} (hq : h.pulse3 = some q)
    (hp : h.pulse0 = some p ∨ h.pulse1 = some p ∨ h.pulse2 = some p ∨ h.pulse3 = some p) : p.bitcount ≤ q.bitcount := by
  have h3 : ∀ p, h.pulse3 = some p → p.bitcount ≤ q.bitcount := by
    intro p hp
    rw [Option.some.inj (hp.symm.trans hq)]
  have h2 := hwf.order23.stamp_le h3
  have h1 := hwf.order12.stamp_le h2
  obtain hp | hp | hp | hp := hp
  · exact hwf.order01.stamp_le h1 p hp
  · exact h1 p hp
  · exact h2 p hp
  · exact h3 p hp

/-- Two pulses more than 6 blocks apart never match (R137). -/
theorem pulsesMatch_of_far {p latest : Pulse} (h : p.bitcount + 182 ≤ latest.bitcount) : pulsesMatch p latest = false := by
  rw [Bool.eq_false_iff, ne_eq, pulsesMatch_iff]
  rintro ⟨-, hblocks, -⟩
  omega

/-- Sync is lost only at the end of a block. -/
theorem nbUntil_le_one_of_loss {b : Bool} {s : State} (hs : s.inSync = true) (ht : (after (.pushBit b) s).inSync = false) :
    s.nbUntil ≤ 1 := by
  by_contra hn
  rw [after_pushBit_inside (by omega)] at ht
  exact Bool.noConfusion (hs.symm.trans ht)

/-- A loss stands at least 46 blocks after the newest pulse: 45 errors were counted before its block, each with a block of 26
bits, and its own block is the next (R153). -/
theorem newestPulse_of_loss {b : Bool} {s : State} (hinv : s.Inv) (hs : s.inSync = true)
    (ht : (after (.pushBit b) s).inSync = false) : ∃ q, s.pulses.pulse3 = some q ∧ q.bitcount + 1196 ≤ s.bitcount + 1 := by
  have hn := nbUntil_le_one_of_loss hs ht
  obtain hi | ⟨_, -, -, had, hsum⟩ := inSync_cleared hs ht
  · cases hi
  have hpush : errSum (pushWindow s.errwin had) ≤ errSum s.errwin + had.toNat := errSum_pushWindow_le s.errwin had
  have hflag := Bool.toNat_le had
  obtain ⟨q, hq, hdist⟩ := hinv.distance hs
  refine ⟨q, hq, ?_⟩
  unfold pushWindow at hpush
  omega

/-- Settles O49: the newest pulse is 46 blocks old at a loss, the others are older, and a match spans at most 6 blocks. -/
theorem stalePulsesNeverMatch : Obligations.StalePulsesNeverMatch := by
  intro b s t hinv h hs ht p hp
  obtain rfl := exec_eq_next_iff.mp h
  obtain ⟨-, -, hcount, -⟩ := pushBit_frame b (clearOut s)
  replace hcount : (after (.pushBit b) s).bitcount = s.bitcount + 1 := hcount
  rw [(pushBit_history_of_inSync b hs).1] at hp
  obtain ⟨q, hq, hold⟩ := newestPulse_of_loss hinv hs ht
  have hpq := hinv.pulses.stamp_le hq hp
  exact ⟨by omega, fun latest hlatest => pulsesMatch_of_far (by omega)⟩

end Sys2Proof.Machine
end

section
/-! Streams of equal bits never acquire sync (41_push_bit.md R151 item 6). -/

namespace Sys2Proof.Machine

/-- What the register holds in a stream of bits b from reset: zeros only, or zeros above ones. -/
def constantRegisters (b : Bool) : List Raw :=
  if b then (List.range 27).map fun k => BitVec.allOnes 26 >>> (26 - k) else [0]

theorem shiftIn_mem_constantRegisters (b : Bool) : ∀ r ∈ constantRegisters b, shiftIn r b ∈ constantRegisters b := by
  rw [← List.all_iff_forall_prop]
  cases b <;> decide

/-- No run of ones at the low end of a block leaves the remainder of an offset word. -/
theorem remainder_constantRegisters (b : Bool) :
    ∀ r ∈ constantRegisters b, ∀ o ∈ offsets, remainder r ≠ offsetWord o := by
  simp only [remainder_eq_rows]
  rw [← List.all_iff_forall_prop]
  cases b <;> decide

theorem observed_constantRegisters {matrix : Vector Check 26} (hm : Admissible matrix) {b : Bool} {r : Raw}
    (hr : r ∈ constantRegisters b) : observed matrix r = none := by
  rw [Option.eq_none_iff_forall_ne_some]
  intro o
  rw [ne_eq, observed_eq_some hm]
  exact remainder_constantRegisters b r hr o (mem_offsets o)

theorem zero_mem_constantRegisters (b : Bool) : 0 ∈ constantRegisters b := by
  cases b <;> decide

/-- The unit searches, no offset having been observed in a stream of bits b. -/
structure SearchesConstant (b : Bool) (s : State) : Prop where
  matrix : Admissible s.cfg.matrix
  inSync : s.inSync = false
  nbUntil : s.nbUntil = 1
  reg : s.reg ∈ constantRegisters b
  out : s.out = none

theorem searchesConstant_initial {cfg : Config} (hm : Admissible cfg.matrix) (b : Bool) :
    SearchesConstant b (State.initial cfg) where
  matrix := hm
  inSync := rfl
  nbUntil := rfl
  reg := zero_mem_constantRegisters b
  out := rfl

/-- One more bit b shows no offset either, so the search goes on (R133, R135). -/
theorem SearchesConstant.after_pushBit {b : Bool} {s : State} (h : SearchesConstant b s) :
    SearchesConstant b (after (.pushBit b) s) := by
  have hreg := shiftIn_mem_constantRegisters b s.reg h.reg
  have hobs := observed_constantRegisters h.matrix hreg
  rw [after_pushBit_searched h.inSync h.nbUntil (by simp [hobs]), hobs]
  exact ⟨h.matrix, h.inSync, if_neg (ne_true_of_eq_false h.inSync), hreg, rfl⟩

theorem SearchesConstant.execAll_replicate {b : Bool} {s : State} (h : SearchesConstant b s) (n : Nat) :
    SearchesConstant b (execAll (List.replicate n (.pushBit b)) s) := by
  induction n generalizing s with
  | zero => exact h
  | succ n ih =>
    rw [List.replicate_succ, execAll_cons]
    exact ih h.after_pushBit

/-- Settles O53, by the run's invariant. -/
theorem constantStreamsNeverSync : Obligations.ConstantStreamsNeverSync := by
  intro cfg hm b n
  have h := (searchesConstant_initial hm b).execAll_replicate n
  exact ⟨h.inSync, h.out⟩

end Sys2Proof.Machine
end

section
/-! A group of four error-free blocks (41_push_bit.md R154). -/

namespace Sys2Proof.Machine

/-- In sync at a block boundary, an offset expected, and a clean block drops no sync (R144): `Awaits` for both values of
LOSS_CHECK, the window kept by the invariant under every_block. -/
structure AwaitsClean (o : Offset) (s : State) : Prop where
  matrix : Admissible s.cfg.matrix
  inSync : s.inSync = true
  nbUntil : s.nbUntil = 26
  expected : s.expected = o
  window : s.cfg.lossCheck = .everyBlock → errSum s.errwin ≤ lossThreshold

/-- A clean block adds no error to the window. -/
theorem AwaitsClean.window_pushed {o : Offset} {s : State} (h : AwaitsClean o s) (hev : s.cfg.lossCheck = .everyBlock) :
    errSum (pushWindow s.errwin false) ≤ lossThreshold :=
  (errSum_pushWindow_le s.errwin false).trans (h.window hev)

/-- An error-free block at the offset in effect is stored as sent (R142, R146). -/
theorem execAll_cleanBlock {s : State} {x o : Offset} (h : AwaitsClean x s) (ho : effectiveOffset (some o) x = o) (d : Data) :
    execAll (expand (.pushBlock d o)) s = reloadCount (closeBlock (setSlot s.cur (blockNo o) (cleanSlot (encodeBlock d o) o)) o
      (pushErrorFlag false (atBlockEnd (encodeBlock d o) s))) := by
  have hblock := execAll_block (encodeBlock d o) s h.inSync h.nbUntil
  have hkept : lossFound s.cfg false (pushWindow s.errwin false) = false :=
    lossFound_framed fun ⟨hev, hsum⟩ => Nat.not_lt.mpr (h.window_pushed hev) hsum
  rw [observed_encodeBlock h.matrix] at hblock
  rw [← h.expected] at ho
  exact hblock.trans (congrArg reloadCount (receive_clean (s := atBlockEnd (encodeBlock d o) s) ho hkept))

theorem cleanBlock_stored {s : State} {x o : Offset} (h : AwaitsClean x s) (ho : effectiveOffset (some o) x = o) (hd : o ≠ .d)
    (d : Data) :
    let t := execAll (expand (.pushBlock d o)) s
    AwaitsClean (nextOffset o) t ∧ t.bitcount = s.bitcount + 26 ∧
    t.cur = setSlot s.cur (blockNo o) (cleanSlot (encodeBlock d o) o) := by
  rw [execAll_cleanBlock h ho d, closeBlock, if_neg hd]
  exact ⟨⟨h.matrix, h.inSync, if_pos h.inSync, rfl, h.window_pushed⟩, rfl, rfl⟩

/-- An error-free block D ends its group, which is emitted with it in slot 4 (R149, R164). -/
theorem cleanBlockD_emits {s : State} (h : AwaitsClean .d s) (d : Data) :
    let t := execAll (expand (.pushBlock d .d)) s
    AwaitsClean .a t ∧ t.bitcount = s.bitcount + 26 ∧ t.out = some t.ready ∧ t.groupReady = true ∧
    ∃ n, t.ready = groupRecord s.offsetsDisabled (setSlot s.cur .four (cleanSlot (encodeBlock d .d) .d)) n := by
  rw [execAll_cleanBlock h rfl d, closeBlock, if_pos rfl]
  exact ⟨⟨h.matrix, h.inSync, if_pos h.inSync, rfl, h.window_pushed⟩, rfl, rfl, rfl, _, rfl⟩

/-- Settles O54: blocks A, B and C or C′ are stored as sent one after another, and block D emits the group of the four. -/
theorem cleanGroupIsEmitted : Obligations.CleanGroupIsEmitted := by
  intro s d1 d2 d3 d4 o3 hinv hm hs hn hexp ho3 clean t
  have heff : effectiveOffset (some o3) .c = o3 := by obtain rfl | rfl := ho3 <;> rfl
  have hd3 : o3 ≠ .d := by obtain rfl | rfl := ho3 <;> decide
  have hnext : nextOffset o3 = .d := by obtain rfl | rfl := ho3 <;> rfl
  have hslot3 : blockNo o3 = .three := by obtain rfl | rfl := ho3 <;> rfl
  have ha : AwaitsClean .a s := ⟨hm, hs, hn, hexp, fun hev => hinv.everyBlock hev hs⟩
  obtain ⟨hb, hcount1, hcur1⟩ := cleanBlock_stored ha rfl (by decide) d1
  obtain ⟨hc, hcount2, hcur2⟩ := cleanBlock_stored (o := .b) hb rfl (by decide) d2
  obtain ⟨hd, hcount3, hcur3⟩ := cleanBlock_stored (o := o3) hc heff hd3 d3
  rw [hnext] at hd
  obtain ⟨ha', hcount4, hout, hflag, n, hready⟩ := cleanBlockD_emits hd d4
  rw [hcur3, hcur2, hcur1, hslot3] at hready
  have ht : t = execAll (expand (.pushBlock d4 .d)) (execAll (expand (.pushBlock d3 o3))
      (execAll (expand (.pushBlock d2 .b)) (execAll (expand (.pushBlock d1 .a)) s))) := by
    simp only [t, List.flatMap_cons, List.flatMap_nil, List.append_nil, execAll_append]
  have hclean : ∀ d o, cleanSlot (encodeBlock d o) o = clean d o := by
    intro d o
    rw [cleanSlot, dataOf_encodeBlock]
  simp only [hclean] at hready
  rw [ht]
  exact ⟨hout, hflag, congrArg Group.nErr hready, congrArg Group.slots hready, ha'.inSync, ha'.nbUntil, ha'.expected,
    by omega⟩

end Sys2Proof.Machine
end

section
/-! A block sent under C′ and hit by one burst, while C is expected (41_push_bit.md R151 item 3, 40_code_functions.md R109). -/

namespace Sys2Proof.Machine

theorem dataOf_xor (v w : Raw) : dataOf (v ^^^ w) = dataOf v ^^^ dataOf w := by
  unfold dataOf
  ext i hi
  simp

/-- The two bursts that together leave the remainder of C′ and C (notes/assumptions/22.md). -/
theorem burstRemainder_of_hits : burstRemainder .c 0x1800000 = offsetWord .cPrime ^^^ remainder 0x0100000 ∧
    burstRemainder .c 0x0100000 = offsetWord .cPrime ^^^ remainder 0x1800000 := by
  simp only [burstRemainder, remainder_eq_rows]
  decide

/-- After any other burst, no second one makes a C block of a C′ block. -/
theorem remainder_cPrime_notMem_bursts : ∀ e ∈ bursts, e ≠ 0x0100000 → e ≠ 0x1800000 →
    offsetWord .cPrime ^^^ remainder e ^^^ offsetWord .c ∉ bursts.map remainder := by
  rw [funext remainder_eq_rows, ← List.all_iff_forall_prop]
  decide

/-- A damaged C′ block and the burst f that the lookup under C answers: the C block stored differs from the sent one in the
data bits of the two bursts. -/
theorem correct_damaged_cPrime {matrix : Vector Check 26} (hm : Admissible matrix) (d : Data) {e f : Raw} (hf : f ∈ bursts)
    (hrem : burstRemainder .c f = offsetWord .cPrime ^^^ remainder e) :
    correct matrix (encodeBlock d .cPrime ^^^ e) .c = (true, encodeBlock (d ^^^ (dataOf e ^^^ dataOf f)) .c) := by
  have hhit : errLookup matrix (syndrome matrix (encodeBlock d .cPrime ^^^ e)) .c = some f := by
    rw [errLookup_eq_some hm, remainder_xor, remainder_encodeBlock]
    exact ⟨hf, hrem⟩
  rw [correct_of_hit hhit, eq_encodeBlock_of_hit hm hhit, dataOf_xor, dataOf_xor, dataOf_encodeBlock, BitVec.xor_assoc]

/-- Settles O56: C and C′ differ by no burst; they differ by two bursts, one upon the other, only for the pair named. -/
theorem damagedCPrimeBlockIsNotRecovered : Obligations.DamagedCPrimeBlockIsNotRecovered := by
  intro matrix hm d e he raw
  have hmem : e ∈ bursts := (mem_bursts e).mpr he
  refine ⟨observed_encodeBlock_xor hm d hmem (offsetWord_xor_notMem_bursts (by decide) (by decide)),
    observed_damaged_ne hm d .cPrime hmem, ?_, ?_, ?_⟩
  · intro h1 h2
    rw [errLookup_eq_none hm, remainder_xor, remainder_encodeBlock]
    exact remainder_cPrime_notMem_bursts e hmem h1 h2
  · rintro rfl
    exact correct_damaged_cPrime hm d (f := 0x1800000) (by decide) burstRemainder_of_hits.1
  · rintro rfl
    exact correct_damaged_cPrime hm d (f := 0x0100000) (by decide) burstRemainder_of_hits.2

end Sys2Proof.Machine
end

section
/-! The BLER window and the percentage (42_group_bler_commands.md R165, R166). -/

namespace Sys2Proof.Machine

/-! ## The moving sum -/

/-- A run of emissions pushes its error counts through the window (R165). -/
theorem foldl_emit_blerwin (groups : List Slots) (s : State) :
    (groups.foldl (fun s slots => emit slots s) s).blerwin = (s.blerwin ++ groups.map nErrOf).drop groups.length := by
  induction groups generalizing s with
  | nil => simp
  | cons g rest ih =>
    have hcut : pushWindow s.blerwin (nErrOf g) ++ rest.map nErrOf = (s.blerwin ++ nErrOf g :: rest.map nErrOf).drop 1 := by
      rw [pushWindow, ← List.drop_append_of_le_length (by simp), List.append_assoc, List.singleton_append]
    rw [List.foldl_cons, ih, emit_blerwin, hcut, List.drop_drop, List.map_cons, List.length_cons, Nat.add_comm]

/-- An emission attaches the window's sum to the group, whatever stood there before (R164). -/
theorem foldl_emit_blerSum (groups : List Slots) {s : State} (h : s.ready.blerSum = s.blerwin.sum) :
    (groups.foldl (fun s slots => emit slots s) s).ready.blerSum =
      (groups.foldl (fun s slots => emit slots s) s).blerwin.sum := by
  induction groups generalizing s with
  | nil => exact h
  | cons g rest ih => exact ih (s := emit g s) rfl

/-- The zeros a window begins with add nothing to what is left of them and the counts pushed behind them. -/
theorem sum_drop_zeros_append (n k : Nat) (counts : List Nat) :
    ((List.replicate n 0 ++ counts).drop k).sum = (counts.drop (k - n)).sum := by
  simp [List.drop_append]

/-- Settles O29: the window is the zeros of reset and the counts of all emissions with as many dropped in front as were
pushed behind. -/
theorem blerIsAMovingSum : Obligations.BlerIsAMovingSum := by
  intro cfg groups _
  rw [foldl_emit_blerSum groups (teleWf_initial cfg).readySum, foldl_emit_blerwin, initial_blerwin, sum_drop_zeros_append]

/-! ## The percentage -/

/-- Settles O30: the quotient of 100·sum + 2·BLER_N by 4·BLER_N, at most 100, and so within the 7 bits of SR3. -/
theorem blerPercentRoundsHalfUp : Obligations.BlerPercentRoundsHalfUp := by
  intro n sum hn hsum
  have hle := blerPct_le hn hsum
  have hlo : 4 * n * blerPct n sum ≤ 100 * sum + 2 * n := Nat.mul_div_le _ _
  have hhi : 100 * sum + 2 * n < 4 * n * (blerPct n sum + 1) := Nat.lt_mul_div_succ _ (by omega)
  refine ⟨hle, ?_, ?_, ?_⟩
  · rw [Nat.mul_assoc]
    omega
  · rw [Nat.mul_assoc]
    omega
  · rintro s rfl rfl
    exact sr3_toNat hle

end Sys2Proof.Machine
end

section
/-! What a consumer computes from a group (42_group_bler_commands.md R161, R163). -/

namespace Sys2Proof.Machine

/-- Settles O27: the four summands of N_ERR are the four block numbers counted. -/
theorem errorCountCountsSlots : Obligations.ErrorCountCountsSlots := by
  intro slots
  refine ⟨?_, nErrOf_le slots⟩
  change nErrOf slots = ([BlockNo.one, .two, .three, .four].filter fun k => slotErrored (getSlot slots k)).length
  rw [← List.countP_eq_length_filter]
  simp only [List.countP_cons, List.countP_nil, nErrOf, getSlot, Bool.toNat, Bool.cond_eq_ite]
  omega

theorem forall_blockNo_iff {p : BlockNo → Prop} : (∀ k, p k) ↔ p .one ∧ p .two ∧ p .three ∧ p .four := by
  constructor
  · intro h
    exact ⟨h _, h _, h _, h _⟩
  · rintro ⟨h1, h2, h3, h4⟩ k
    cases k <;> assumption

theorem hasPI_iff (g : Group) : hasPI g = true ↔
    g.slots.slot1.isReceived = true ∨ (g.slots.slot3.isReceived = true ∧ g.slots.slot3.offset = some .cPrime) := by
  rw [hasPI, Bool.or_eq_true, thirdIsCPrime_iff]

theorem isEmpty_iff (g : Group) : isEmpty g = true ↔ ∀ k, (getSlot g.slots k).isReceived = false := by
  rw [forall_blockNo_iff]
  simp [isEmpty, getSlot, and_assoc]

/-- Settles O28, each predicate by its own equivalence. -/
theorem groupPredicates : Obligations.GroupPredicates := fun g => ⟨hasPI_iff g, isEmpty_iff g⟩

end Sys2Proof.Machine
end

section
/-! The commands other than PUSH_BIT and RESET (42_group_bler_commands.md R168 to R171), and the frame of every command. -/

namespace Sys2Proof.Machine

/-! ## NOP, POP_GROUP and DISABLE_OFFSETS -/

/-- The command a presented word executes, by its opcode field (R70, R71). -/
theorem step_present_of_opField {w : CommandWord} {op : BitVec 3} (h : opField w = op) (s : State) :
    step (present w s) = .next (after (decodeBits (op.getLsbD 2) (op.getLsbD 1) (op.getLsbD 0) w) s) := by
  rw [step_present, decode_of_opField h, exec_eq]

/-- Settles O8: opcodes 0, 6 and 7 decode to commands that clear the group output only. -/
theorem nopChangesNothing : Obligations.NopChangesNothing := by
  intro s w hop
  refine ⟨?_, rfl, rfl, rfl⟩
  obtain h | h | h := hop <;> exact step_present_of_opField h s

/-- Settles O9: opcode 2 decodes to POP_GROUP, which writes one flag; SR5 reads `ready`. -/
theorem popGroupClearsTheFlagOnly : Obligations.PopGroupClearsTheFlagOnly := by
  intro s w hop
  refine ⟨step_present_of_opField hop s, rfl, ?_, rfl⟩
  intro hclear
  exact congrArg (fun flag => Host.Outcome.next { s with groupReady := flag, out := none }) hclear.symm

/-- Settles O10: opcode 4 decodes to DISABLE_OFFSETS, which writes one flag, and RESET alone clears that flag. -/
theorem disableOffsetsSetsTheFlagOnly : Obligations.DisableOffsetsSetsTheFlagOnly := by
  intro s w hop
  refine ⟨step_present_of_opField hop s, rfl, ?_, ?_⟩
  · intro hset
    exact congrArg (fun flag => Host.Outcome.next { s with offsetsDisabled := flag, out := none }) hset.symm
  · intro i t hset hi h
    obtain rfl := exec_eq_next_iff.mp h
    by_contra hclear
    exact hi (offsetsDisabled_cleared hset (Bool.eq_false_iff.mpr hclear))

/-! ## PUSH_GROUP -/

@[simp] theorem pushedSlot_isReceived (rx : Bool) (w : Data) (o : Offset) : (pushedSlot rx w o).isReceived = rx := by
  cases rx <;> rfl

/-- A pushed slot has no errors, so it counts exactly when it is missing (R169). -/
@[simp] theorem slotErrored_pushedSlot (rx : Bool) (w : Data) (o : Offset) : slotErrored (pushedSlot rx w o) = !rx := by
  cases rx <;> rfl

theorem pushedSlot_offset_ne {x o : Offset} (h : o ≠ x) (rx : Bool) (w : Data) : (pushedSlot rx w o).offset ≠ some x := by
  cases rx
  · exact nofun
  · exact fun hx => h (Option.some.inj hx)

section PushedGroup

variable (rx1 rx2 rx3 rx4 : Bool) (w1 w2 w3 w4 : Data)

theorem nErrOf_pushedSlots : nErrOf (pushedSlots rx1 rx2 rx3 rx4 w1 w2 w3 w4) =
    (!rx1).toNat + (!rx2).toNat + (!rx3).toNat + (!rx4).toNat := by
  simp [nErrOf, pushedSlots]

/-- Block 3 is always labelled C (R169). -/
theorem thirdIsCPrime_pushedSlots : thirdIsCPrime (pushedSlots rx1 rx2 rx3 rx4 w1 w2 w3 w4) = false := by
  rw [Bool.eq_false_iff, ne_eq, thirdIsCPrime_iff]
  exact fun h => pushedSlot_offset_ne (by decide) rx3 w3 h.2

/-- A pushed group of version B has its type exactly when offsets are disabled (R162, R169). -/
theorem typeFields_pushedSlots (hw : w2.getLsbD 11 = true) (offsetsDisabled : Bool) :
    let slots := pushedSlots rx1 true rx3 rx4 w1 w2 w3 w4
    typeVersionOf slots = true ∧ hasTypeOf offsetsDisabled slots = offsetsDisabled := by
  intro slots
  have hversion : typeVersionOf slots = true := (typeFields_received (slots := slots) rfl).2.trans hw
  have hreceived : slots.slot2.isReceived = true := rfl
  have hthird : thirdIsCPrime slots = false := thirdIsCPrime_pushedSlots ..
  exact ⟨hversion, by simp [hasTypeOf, hversion, hreceived, hthird]⟩

end PushedGroup

/-- Settles O11: PUSH_GROUP is the emission of the pushed slots; the fields of the record by what a pushed slot holds. -/
theorem pushGroupEmitsTheWords : Obligations.PushGroupEmitsTheWords := by
  intro s rx1 rx2 rx3 rx4 w1 w2 w3 w4 slot slots
  refine ⟨after (.pushGroup rx1 rx2 rx3 rx4 w1 w2 w3 w4) s, exec_eq _ _, rfl, rfl, nErrOf_pushedSlots .., rfl, rfl, ?_, ?_, ?_⟩
  · change ((pushedSlot rx1 w1 .a).isReceived || thirdIsCPrime (pushedSlots rx1 rx2 rx3 rx4 w1 w2 w3 w4)) = rx1
    rw [pushedSlot_isReceived, thirdIsCPrime_pushedSlots, Bool.or_false]
  · simp [after, isEmpty, groupRecord, pushedSlots]
  · rintro rfl hw
    exact typeFields_pushedSlots rx1 rx3 rx4 w1 w2 w3 w4 hw s.offsetsDisabled

/-! ## Frames -/

/-- With few errors in the window one more block does not drop sync (R144). -/
theorem receive_keeps_sync {u : State} (hs : u.inSync = true) (hwin : errSum u.errwin ≤ 44) (raw : Raw) (obs : Option Offset) :
    (receive raw obs u).inSync = true := by
  obtain ⟨unc, had, ⟨hloss, -⟩ | ⟨-, hkept, -⟩⟩ := receive_sync_cases raw obs u
  · have hsum := errSum_pushWindow_le u.errwin had
    have hflag := Bool.toNat_le had
    have hover := ((lossFound_iff _ _ _).mp hloss).2
    omega
  · exact hkept.trans hs

/-- A PUSH_BIT that leaves the unit searching receives no block (R132, R133). -/
theorem pushBit_frame_of_searching {b : Bool} {s : State} (hs : s.inSync = false) (hwin : errSum s.errwin = 0)
    (ht : (after (.pushBit b) s).inSync = false) :
    (after (.pushBit b) s).cur = s.cur ∧ (after (.pushBit b) s).errwin = s.errwin ∧ (after (.pushBit b) s).out = none := by
  obtain ⟨-, h⟩ | ⟨-, -, -, h⟩ | ⟨-, hsync, -⟩ | ⟨-, -, o, -, -, h⟩ := after_pushBit_cases b s
  · rw [h]
    exact ⟨rfl, rfl, rfl⟩
  · rw [h]
    cases observed s.cfg.matrix (shiftIn s.reg b) <;> exact ⟨rfl, rfl, rfl⟩
  · simp [hs] at hsync
  · have hkept := receive_keeps_sync (u := acquired o (takeBit b (clearOut s))) rfl (hwin.trans_le (Nat.zero_le 44))
      (shiftIn s.reg b) (observed s.cfg.matrix (shiftIn s.reg b))
    rw [h, reloadCount_inSync, hkept] at ht
    cases ht

/-- Without an emission only RESET writes the BLER window and `ready` (R23, R34). -/
theorem telemetry_of_out_eq_none {i : Instr} {s : State} (hout : (after i s).out = none) (hi : i ≠ .reset) :
    (after i s).blerwin = s.blerwin ∧ (after i s).ready = s.ready := by
  obtain ⟨-, hkept⟩ | ⟨slots, hemit, -⟩ := after_out i s
  · exact hkept hi
  · simp [hemit] at hout

theorem pushBit_groupReady_of_out_eq_none {b : Bool} {s : State} (hout : (after (.pushBit b) s).out = none) :
    (after (.pushBit b) s).groupReady = s.groupReady := by
  obtain ⟨-, -, -, hkept⟩ | ⟨slots, hemit, -⟩ := pushBit_emission b s
  · exact hkept
  · simp [hemit] at hout

/-- Settles O46, clause by clause. -/
theorem commandFrames : Obligations.CommandFrames := by
  intro i s t h
  obtain rfl := exec_eq_next_iff.mp h
  refine ⟨after_cfg i s, after_pending i s, ?_, telemetry_of_out_eq_none, ?_, ?_, ?_, ?_⟩
  · intro hpush hreset
    obtain ⟨b, hi⟩ | hi | hdec := after_decoder_cases i s
    · exact absurd hi (hpush b)
    · exact absurd hi hreset
    · exact hdec
  · rintro ⟨b, rfl⟩
    obtain ⟨-, -, hcount, -⟩ := pushBit_frame b (clearOut s)
    exact hcount
  · rintro ⟨b, rfl⟩ hs
    exact pushBit_history_of_inSync b hs
  · rintro ⟨b, rfl⟩
    exact pushBit_frame_of_searching
  · rintro ⟨b, rfl⟩
    exact pushBit_groupReady_of_out_eq_none

end Sys2Proof.Machine
end

section
/-! Several conditions in one PUSH_BIT (60_exceptions.md R193). -/

namespace Sys2Proof.Machine

/-- What an uncorrectable block leaves in a slot still to be written (R147). -/
def markedSlot : Slot := { Slot.fresh with hadErrors := true }

/-- In sync with D expected, slot 4 of the group being assembled is still to be written (10_state.md R38 item 7). -/
theorem slot4_fresh_of_expected_d {s : State} (h : s.Inv) (hs : s.inSync = true) (hexp : s.expected = .d) :
    s.cur.slot4 = Slot.fresh :=
  h.ahead hs .four (by rw [hexp]; exact le_rfl)

/-- PUSH_BIT at the end of an uncorrectable block: its slot is marked, and the step runs on whatever the loss test found
(R144, R145, R147). -/
theorem after_pushBit_uncorrectable {b : Bool} {s : State} {o : Offset} (hs : s.inSync = true) (hn : s.nbUntil = 1)
    (ho : effectiveOffset (observed s.cfg.matrix (shiftIn s.reg b)) s.expected = o)
    (hne : observed s.cfg.matrix (shiftIn s.reg b) ≠ some o)
    (hlook : errLookup s.cfg.matrix (syndrome s.cfg.matrix (shiftIn s.reg b)) o = none) :
    after (.pushBit b) s = reloadCount (closeBlock
      (setSlot s.cur (blockNo o) { getSlot s.cur (blockNo o) with hadErrors := true }) o
      (afterLoss true true (takeBit b (clearOut s)))) := by
  rw [after_pushBit_receive hn.le hs, receive_uncorrectable (s := takeBit b (clearOut s)) ho hne hlook]
  rfl

/-- An uncorrectable block D in an invariant state closes its group with slot 4 marked and otherwise fresh. -/
theorem after_pushBit_uncorrectable_d {b : Bool} {s : State} (hinv : s.Inv) (hs : s.inSync = true) (hn : s.nbUntil = 1)
    (hexp : s.expected = .d) (hne : observed s.cfg.matrix (shiftIn s.reg b) ≠ some .d)
    (hlook : errLookup s.cfg.matrix (syndrome s.cfg.matrix (shiftIn s.reg b)) .d = none) :
    after (.pushBit b) s = reloadCount (closeBlock (setSlot s.cur .four markedSlot) .d
      (afterLoss true true (takeBit b (clearOut s)))) := by
  rw [markedSlot, ← slot4_fresh_of_expected_d hinv hs hexp]
  exact after_pushBit_uncorrectable hs hn (by rw [hexp]; rfl) hne hlook

/-- Settles O25: the loss test clears `in_sync` and the window, and closing block D does the rest. -/
theorem lossAndEmissionInOneCommand : Obligations.LossAndEmissionInOneCommand := by
  intro b s hinv hs hn hexp hne hlook hsum
  obtain ⟨hlost, -, hdrop⟩ := blockEnd_sync (u := takeBit b (clearOut s)) hs true true (setSlot s.cur .four markedSlot) .d
  obtain ⟨hnext, hcur, hflag, -, -, hready⟩ :=
    blockEnd_emits (setSlot s.cur .four markedSlot) true true (takeBit b (clearOut s))
  have hsync := hlost.mpr ((lossFound_iff _ _ _).mpr ⟨.inl rfl, hsum⟩)
  obtain ⟨hwin, -⟩ := hdrop hsync
  refine ⟨after (.pushBit b) s, exec_eq _ _, ?_⟩
  rw [after_pushBit_uncorrectable_d hinv hs hn hexp hne hlook]
  exact ⟨hsync, hflag, (congrArg errSum hwin).trans (errSum_replicate_false 50), hcur, hnext,
    congrArg (fun g : Group => g.slots.slot4) hready⟩

end Sys2Proof.Machine
end

section
/-! RESET (70_reset_and_hazards.md R210): the state it gives, and what the ports show of it. -/

namespace Sys2Proof.Machine

/-- An empty window of errors is 0 percent (R166). -/
theorem blerPct_zero {n : Nat} (hn : 1 ≤ n) : blerPct n 0 = 0 :=
  Nat.div_eq_of_lt (by omega)

theorem sum_resetUnit_blerwin (s : State) : (resetUnit s).blerwin.sum = 0 := by simp

theorem sr0_resetUnit (s : State) : sr0 (resetUnit s) = 0b000 := by
  rw [sr0, resetUnit_offsetsDisabled, resetUnit_groupReady, resetUnit_inSync]
  decide

/-- The BLER ports after RESET show an empty BLER window, and BLER_N where it fits SR4 (R29, R210). -/
theorem blerPorts_resetUnit {s : State} (hlo : 1 ≤ s.cfg.blerN) (hhi : s.cfg.blerN < 256) :
    sr2 (resetUnit s) = 0 ∧ sr3 (resetUnit s) = 0 ∧ sr4 (resetUnit s) = BitVec.ofNat 8 s.cfg.blerN := by
  refine ⟨?_, ?_, if_pos hhi⟩
  · rw [sr2, sum_resetUnit_blerwin]
    rfl
  · rw [sr3, sum_resetUnit_blerwin, resetUnit_cfg, blerPct_zero hlo]
    rfl

/-- The fresh group in the packed layout: four slots whose offset code is `invalid`, 5 (R74, R80). -/
theorem packGroup_fresh : packGroup Group.fresh = 0x0000280000000000500000000000A0000000000140000000000 := by
  decide +kernel

/-- Settles O12: RESET is `resetUnit`, which keeps the configuration and the words presented alone. -/
theorem resetGivesTheInitialState : Obligations.ResetGivesTheInitialState := by
  refine ⟨fun s => exec_eq .reset s, ?_, ?_⟩
  · intro s hcfg hpending
    have hreset : resetUnit s = State.reset := by
      rw [resetUnit, hcfg, hpending]
      rfl
    rw [exec_eq, ← hreset]
    rfl
  · intro s hlo hhi
    obtain ⟨h2, h3, h4⟩ := blerPorts_resetUnit hlo hhi
    exact ⟨resetUnit s, exec_eq .reset s, sr0_resetUnit s, rfl, h2, h3, h4, packGroup_fresh⟩

end Sys2Proof.Machine
end

section
/-! Emissions by PUSH_BIT are far apart (70_reset_and_hazards.md R214). After one the unit is at the start of a group, in sync
with 26 bits to the end of block A, or it has just lost sync and no pulse of its history can match one of the next 26 bits. -/

namespace Sys2Proof.Machine

/-! ## Pulses that cannot complete a sequence -/

/-- Two pulses less than a block apart never match (R137). -/
theorem pulsesMatch_of_near {p latest : Pulse} (hlt : p.bitcount < latest.bitcount)
    (hnear : latest.bitcount < p.bitcount + 26) : pulsesMatch p latest = false := by
  rw [Bool.eq_false_iff, ne_eq, pulsesMatch_iff]
  rintro ⟨hblock, -⟩
  omega

/-- No pulse of the history matches a pulse of the next k bits. -/
def NoMatchFor (k : Nat) (h : PulseHistory) (now : Nat) : Prop :=
  ∀ p, (h.pulse0 = some p ∨ h.pulse1 = some p ∨ h.pulse2 = some p ∨ h.pulse3 = some p) →
    ∀ latest : Pulse, now < latest.bitcount → latest.bitcount ≤ now + k → pulsesMatch p latest = false

section NoMatchFor

variable {k now : Nat} {h : PulseHistory} (hno : NoMatchFor (k + 1) h now)
include hno

theorem NoMatchFor.sequenceFound_push (o : Offset) : sequenceFound (pushPulse h o (now + 1)) = false := by
  rw [Bool.eq_false_iff, ne_eq, sequenceFound_iff]
  rintro ⟨latest, hlatest, p, hp, hmatch⟩
  obtain rfl : _ = latest := Option.some.inj hlatest
  rw [hno p (.inr hp) _ (by simp only; omega) (by simp only; omega)] at hmatch
  cases hmatch

theorem NoMatchFor.next : NoMatchFor k h (now + 1) :=
  fun p hp latest hlt hle => hno p hp latest (by omega) (by omega)

/-- A pulse recorded now is less than a block from the next 25 bits. -/
theorem NoMatchFor.push (hk : k ≤ 25) (o : Offset) : NoMatchFor k (pushPulse h o (now + 1)) (now + 1) := by
  rintro p (hp | hp | hp | hp) latest hlt hle
  · exact hno.next p (.inr (.inl hp)) latest hlt hle
  · exact hno.next p (.inr (.inr (.inl hp))) latest hlt hle
  · exact hno.next p (.inr (.inr (.inr hp))) latest hlt hle
  · obtain rfl : _ = p := Option.some.inj hp
    exact pulsesMatch_of_near hlt (by simp only; omega)

end NoMatchFor

/-! ## Runs of PUSH_BIT without an emission -/

/-- The next k bits emit no group: in sync they end no block D, and out of sync they acquire no sync. -/
structure QuietFor (k : Nat) (s : State) : Prop where
  inBlock : s.inSync = true → s.expected ≠ .d ∧ k ≤ s.nbUntil
  search : s.inSync = false → NoMatchFor k s.pulses s.bitcount

section QuietFor

variable {k : Nat} {s : State} (h : QuietFor (k + 1) s)
include h

theorem QuietFor.out_after (b : Bool) : (after (.pushBit b) s).out = none := by
  obtain ⟨-, ht⟩ | ⟨-, -, -, ht⟩ | ⟨-, hs, ht⟩ | ⟨-, hs, o, -, hseq, -⟩ := after_pushBit_cases b s
  · rw [ht]
    rfl
  · rw [ht]
    cases observed s.cfg.matrix (shiftIn s.reg b) <;> rfl
  · have hnext : nextOffset s.expected ≠ .a := mt nextOffset_eq_a.mp (h.inBlock hs).1
    rw [ht]
    exact ((receive_out _ _ (takeBit b (clearOut s))).1 hnext).1
  · simp [(h.search hs).sequenceFound_push o] at hseq

theorem QuietFor.after_pushBit (hpos : 0 < k) (hk : k ≤ 25) (b : Bool) : QuietFor k (after (.pushBit b) s) := by
  obtain ⟨-, ht⟩ | ⟨-, hs, -, ht⟩ | ⟨hn, hs, -⟩ | ⟨-, hs, o, -, hseq, -⟩ := after_pushBit_cases b s
  · rw [ht]
    exact ⟨fun hs => ⟨(h.inBlock hs).1, Nat.le_sub_one_of_lt (h.inBlock hs).2⟩, fun hs => (h.search hs).next⟩
  · have hno := h.search hs
    rw [ht]
    cases observed s.cfg.matrix (shiftIn s.reg b) with
    | none => exact ⟨fun hs' => Bool.noConfusion (hs.symm.trans hs'), fun _ => hno.next⟩
    | some o => exact ⟨fun hs' => Bool.noConfusion (hs.symm.trans hs'), fun _ => hno.push hk o⟩
  · have := (h.inBlock hs).2
    omega
  · simp [(h.search hs).sequenceFound_push o] at hseq

end QuietFor

theorem QuietFor.execAll_out {bits : List Bool} {s : State} (h : QuietFor bits.length s) (hne : bits ≠ [])
    (hlen : bits.length ≤ 26) : (execAll (bits.map .pushBit) s).out = none := by
  induction bits generalizing s with
  | nil => exact absurd rfl hne
  | cons b l ih =>
    rw [List.length_cons] at h hlen
    rw [List.map_cons, execAll_cons]
    cases l with
    | nil => exact h.out_after b
    | cons c l => exact ih (h.after_pushBit (Nat.succ_pos _) (by omega) b) (List.cons_ne_nil c l) (by omega)

/-! ## After an emission -/

section Emission

variable {b : Bool} {s : State} (hout : (after (.pushBit b) s).out ≠ none)
include hout

/-- PUSH_BIT emits only at the end of a block, and then block A is expected (R149). -/
theorem expected_of_emission : s.nbUntil ≤ 1 ∧ (after (.pushBit b) s).expected = .a := by
  obtain ⟨-, hnone⟩ | ⟨hn, u, hrec, ht⟩ := pushBit_receives_cases b s
  · exact absurd hnone hout
  · obtain ⟨-, huout, -⟩ := receives_frame hrec
    rw [ht] at hout ⊢
    refine ⟨hn, (receive_expected _ _ _).trans ?_⟩
    by_contra hnext
    exact hout (((receive_out _ _ _).1 hnext).1.trans huout)

/-- An emission from the search keeps the sync just acquired, so a loss with an emission is one from sync (R132, R138). -/
theorem inSync_of_emission_with_loss (hinv : s.Inv) (hlost : (after (.pushBit b) s).inSync = false) : s.inSync = true := by
  obtain ⟨-, hnone⟩ | ⟨-, u, ⟨hs, -⟩ | ⟨o, ⟨hs, hobs, hseq⟩, -⟩, -⟩ := pushBit_receives_cases b s
  · exact absurd hnone hout
  · exact hs
  · obtain ⟨hkept, -⟩ := control_of_acquired hs (hinv.searchCount hs) (hinv.searchWindow hs) hobs hseq
    exact Bool.noConfusion (hlost.symm.trans hkept)

theorem quietFor_of_emission (hinv : s.Inv) {k : Nat} (hk : k ≤ 26) : QuietFor k (after (.pushBit b) s) := by
  obtain ⟨hn, hexp⟩ := expected_of_emission hout
  refine ⟨fun hsync => ⟨by rw [hexp]; decide, ?_⟩, fun hlost p hp latest hlt _ => ?_⟩
  · rw [after_pushBit_nbUntil, if_pos hn, if_pos hsync]
    exact hk
  · have hs := inSync_of_emission_with_loss hout hinv hlost
    exact (stalePulsesNeverMatch b s _ hinv (exec_eq _ _) hs hlost p hp).2 latest hlt.le

end Emission

/-- Settles O50: an emission leaves a state that is quiet for 26 bits. -/
theorem emissionsAreFarApart : Obligations.EmissionsAreFarApart := by
  intro b s t hinv h hout bits hne hlen
  obtain rfl := exec_eq_next_iff.mp h
  exact (quietFor_of_emission hout hinv hlen).execAll_out hne hlen

end Sys2Proof.Machine
end
